-- ==== Sys2Proof/Word.lean ====
section
/-! DEFINITION. The words of the block: bytes of the frame and 32-bit register words (00_scope.md R6 to R8). -/

namespace Sys2Proof

/-- One byte of the frame buffer, or one ASCII character of a string register (R8, R11). -/
abbrev Byte := BitVec 8

/-- A 16-bit field: LEN, ARG, every offset and length result (R6: LEN_W = ARG_W = 16). -/
abbrev Half := BitVec 16

/-- A register word (R6: REG_W = 32); a command word is one (R80). -/
abbrev Word := BitVec 32

end Sys2Proof
end

