-- ==== Sys2Proof/Syntax.lean ====
section
/-! DEFINITION. The seven commands of the block, one constructor per row of spec/opcode_table.json
(30_encoding.md R82). -/

namespace Sys2Proof

/-- A command and its one operand, the window base (R81): a natural number, as in the assembler's
`MNEMONIC base` (R86). Whether it fits the 16 bits of ARG is `Instr.wellFormed` (log 16). -/
inductive Instr where
  /-- ETH_DECODE: decode a 14-byte Ethernet II header (R101). -/
  | ethDecode (base : Nat)
  /-- IPV4_DECODE: decode an IPv4 header (R122). -/
  | ipv4Decode (base : Nat)
  /-- FRAME_DECODE: Ethernet decode, then IPv4 decode when EtherType = 0x0800 (R171). -/
  | frameDecode (base : Nat)
  /-- RD_U16_BE: read a big-endian unsigned 16-bit value (R151). -/
  | rdU16Be (base : Nat)
  /-- RD_U32_BE: read a big-endian unsigned 32-bit value (R152). -/
  | rdU32Be (base : Nat)
  /-- MAC_FMT: render 6 bytes as a MAC string (R153). -/
  | macFmt (base : Nat)
  /-- IPV4_ADDR_FMT: render 4 bytes as a dotted-decimal string (R132). -/
  | ipv4AddrFmt (base : Nat)
  deriving DecidableEq, Repr

/-- The window base of a command (R81). -/
def Instr.base : Instr → Nat
  | .ethDecode b => b
  | .ipv4Decode b => b
  | .frameDecode b => b
  | .rdU16Be b => b
  | .rdU32Be b => b
  | .macFmt b => b
  | .ipv4AddrFmt b => b

end Sys2Proof
end

