-- ==== Sys2Proof/WellFormed.lean ====
section
/-! DEFINITION. Which terms of `Instr` are commands: the one check is that the base fits ARG. -/

namespace Sys2Proof

/-- The base of a command is an integer from 0 to 65535 (30_encoding.md R81, R86). -/
def Instr.wellFormed (i : Instr) : Bool := decide (i.base < 2 ^ 16)

end Sys2Proof
end

