-- ==== Sys2Proof/Decode.lean ====
section
/-! DEFINITION. The decoder of command words (30_encoding.md R80 to R83), total on every word, and after it
the encoder, written from the same tables. -/

namespace Sys2Proof

/-- OPC, bits [7:0] of a command word (R80). -/
def cmdOpc (c : Word) : Byte := c.extractLsb' 0 8

/-- RSV, bits [15:8] of a command word (R80). -/
def cmdRsv (c : Word) : Byte := c.extractLsb' 8 8

/-- ARG, bits [31:16] of a command word (R80). -/
def cmdArg (c : Word) : Half := c.extractLsb' 16 16

/-- The opcode map (R82): the command an OPC value selects. Every value not listed is reserved (R83). -/
def decodeOpc (opc : Byte) (base : Nat) : Option Instr :=
  if opc = 0x01#8 then some (.ethDecode base)
  else if opc = 0x02#8 then some (.ipv4Decode base)
  else if opc = 0x03#8 then some (.frameDecode base)
  else if opc = 0x10#8 then some (.rdU16Be base)
  else if opc = 0x11#8 then some (.rdU32Be base)
  else if opc = 0x20#8 then some (.macFmt base)
  else if opc = 0x21#8 then some (.ipv4AddrFmt base)
  else none

/-- The decoder: RSV must be zero and OPC must be in the opcode map (R82, R83). The operand is ARG
zero-extended (R81). `none` is a word that selects no operation; issuing it is a COMMAND_ERROR (R84). -/
def decode (c : Word) : Option Instr :=
  if cmdRsv c = 0#8 then decodeOpc (cmdOpc c) (cmdArg c).toNat else none

/-- The OPC value of each command (R82). -/
def Instr.opcode : Instr → Byte
  | .ethDecode _ => 0x01#8
  | .ipv4Decode _ => 0x02#8
  | .frameDecode _ => 0x03#8
  | .rdU16Be _ => 0x10#8
  | .rdU32Be _ => 0x11#8
  | .macFmt _ => 0x20#8
  | .ipv4AddrFmt _ => 0x21#8

/-- The encoder: the word of ARG, RSV = 0 and OPC, most significant field first (R80). -/
def encode (i : Instr) : Word := BitVec.ofNat 16 i.base ++ (0x00#8 ++ i.opcode)

/-- The host's reading of a table row: the bits of `w` below `nbits`, every bit above being 0, decoded as a
command word. A command arrives as one 32-bit register word (R64, R80), so no byte order comes in (log 2). -/
def decodeTableWord (nbits w : Nat) : Option Instr := decode (BitVec.ofNat 32 (w % 2 ^ nbits))

end Sys2Proof
end

