-- ==== Sys2Proof/Config.lean ====
section
/-! DEFINITION. The configuration of an implementation (00_scope.md R6). The two OPEN parameters are
opaque constants without a value: a claim holds for every value the spec allows. The fixed parameters
are in the types (LEN_W, ARG_W, REG_W) and in what the IPv4 meaning does not check
(VERSION_POLICY = PASS, R125). -/

namespace Sys2Proof.Config

/-- How far BUF_CAP lies above its lower bound 74: any number from 0 to 65461 (log 8). -/
opaque bufCapAboveMin : Fin 65462

/-- BUF_CAP, the capacity of FBUF in bytes: OPEN, an integer with 74 ≤ BUF_CAP ≤ 65535 (R6, D11; log 8).
DESIGN CHOICE: one value for every block of a system, which R6 and R215 leave open (log 21). -/
def bufCap : Nat := bufCapAboveMin.val + 74

/-- How many block instances a system has beyond the first (log 9). -/
opaque furtherInstances : Nat

/-- N_INST, the number of independent instances in a system: OPEN, at least 1 (R6, D25; log 9). -/
def nInst : Nat := furtherInstances + 1

theorem bufCap_ge : 74 ≤ bufCap := Nat.le_add_left _ _

theorem bufCap_le : bufCap ≤ 65535 := by
  have := bufCapAboveMin.isLt
  unfold bufCap
  omega

theorem nInst_pos : 0 < nInst := Nat.succ_pos _

end Sys2Proof.Config
end

