-- ==== Sys2Proof/Machine/State.lean ====
section
/-! DEFINITION. The state of one block, all of it (10_state.md R21), with the host's coming actions and what
its reads returned; the faults and refusals; the state after reset (R39). -/

namespace Sys2Proof.Machine

/-- The model faults, which mark host-duty violations and are never reported in CODE (60_exceptions.md R209).
`exec` and the host's reads raise them, `step` enters them in the fault record (log 3). Safe: no value is
drawn where the spec gives none. -/
inductive Fault where
  /-- Raised by a command whose read set holds an FBUF byte never written since reset, and by a host read of
  such a byte (20_memory.md R61, R62); `offset` is the lowest unwritten offset of the read. Safe. -/
  | unwrittenFrameByte (offset : Nat)
  /-- Raised by a host read of a result register whose group is invalid (10_state.md R36). Safe. -/
  | readOfInvalidResult (offset : Nat)
  deriving DecidableEq, Repr

/-- Why an action has no step (60_exceptions.md R209). -/
inductive Refusal where
  /-- Raised by an arm of `exec` whose instruction has no meaning yet (no arm is left so). Safe. -/
  | notModelled (mnemonic : String)
  /-- Raised by `step` for a host access outside the interface: an FBUF offset at or above BUF_CAP, a REG offset
  at or above 0x100, a REG access that is not a word or not at a multiple of 4 (R23(c), R61(c)), an FBUF access
  that is not a byte (R61(d), log 10); and by `System.step` for an index that names no block (log 9). Safe. -/
  | hostAccessOutOfInterface
  deriving DecidableEq, Repr

/-- The error kinds a command can end with (60_exceptions.md R203, R204, R206, R207). -/
inductive ErrorKind where
  | truncatedFrame
  | truncatedHeader
  | malformedHeader
  | commandError
  deriving DecidableEq, Repr

/-- The values of STATUS.CODE (60_exceptions.md R202). The reserved values 0x5 to 0xE are never produced (log 17). -/
inductive Code where
  | ok
  | truncatedFrame
  | truncatedHeader
  | malformedHeader
  | commandError
  | idle
  deriving DecidableEq, Repr

/-- The fields of STATUS (10_state.md R27); its other bits read 0. -/
structure Status where
  code     : Code
  ethValid : Bool
  ipValid  : Bool
  rdValid  : Bool
  fmtValid : Bool
  isIpv4   : Bool
  lastOpc  : Byte
  deriving DecidableEq, Repr

/-- A string region of five register words, 20 bytes (10_state.md R24, R35). -/
structure Str20 where
  w0 : Word
  w1 : Word
  w2 : Word
  w3 : Word
  w4 : Word
  deriving DecidableEq, Repr

/-- A string region of four register words, 16 bytes (10_state.md R24, R35). -/
structure Str16 where
  w0 : Word
  w1 : Word
  w2 : Word
  w3 : Word
  deriving DecidableEq, Repr

/-- The ETH result group (10_state.md R30). -/
structure EthGroup where
  dstHi      : Half
  dstLo      : Word
  srcHi      : Half
  srcLo      : Word
  etherType  : Half
  payloadLen : Half
  payloadOff : Half
  dstStr     : Str20
  srcStr     : Str20
  deriving DecidableEq, Repr

/-- The IP result group (10_state.md R31). -/
structure IpGroup where
  version    : BitVec 4
  ihl        : BitVec 4
  hlen       : BitVec 6
  tos        : Byte
  totLen     : Half
  ident      : Half
  flags      : BitVec 3
  fragOff    : BitVec 13
  ttl        : Byte
  proto      : Byte
  csum       : Half
  src        : Word
  dst        : Word
  optLen     : Half
  optOff     : Half
  payloadOff : Half
  dstStrLen  : BitVec 4
  srcStrLen  : BitVec 4
  srcStr     : Str16
  dstStr     : Str16
  deriving DecidableEq, Repr

/-- The FMT result group (10_state.md R33). -/
structure FmtGroup where
  len : BitVec 5
  str : Str20
  deriving DecidableEq, Repr

/-- The frame buffer (20_memory.md R60, R61): the written bytes, offsets strictly rising. An offset that is not
listed is unwritten and reads as no value (R39; log 12). -/
abbrev Memory := List Host.Cell

/-- How much a host access transfers: byte, halfword or word (10_state.md R23(c), 20_memory.md R61(d)). -/
inductive AccessSize where
  | byte
  | half
  | word
  deriving DecidableEq, Repr

/-- One host action (10_state.md R20(a), R23; 20_memory.md R61; 70_reset_and_hazards.md R230). A write carries its
data in the low bits of `value` (log 19). -/
inductive HostAction where
  | regRead (size : AccessSize) (offset : Nat)
  | regWrite (size : AccessSize) (offset : Nat) (value : Word)
  | fbufRead (size : AccessSize) (offset : Nat)
  | fbufWrite (size : AccessSize) (offset : Nat) (value : Word)
  | reset
  deriving DecidableEq, Repr

/-- What a host read returned: a register word or an FBUF byte (log 6). -/
inductive Response where
  | word (value : Word)
  | byte (value : Byte)
  deriving DecidableEq, Repr

/-- The state of one block (10_state.md R21) and the model's own two fields. -/
structure State where
  /-- FBUF (R60). -/
  fbuf      : Memory
  /-- LEN (R28). -/
  len       : Half
  /-- STATUS (R27). -/
  status    : Status
  /-- The ETH result registers (R30), readable while ETH_VALID is set. -/
  eth       : EthGroup
  /-- The IP result registers (R31), readable while IP_VALID is set. -/
  ip        : IpGroup
  /-- RD_VALUE (R32), readable while RD_VALID is set. -/
  rdValue   : Word
  /-- FMT_LEN and FMT_STR (R33), readable while FMT_VALID is set. -/
  fmt       : FmtGroup
  /-- The fault record (R36), oldest first; never cleared (log 13). -/
  faults    : List Fault
  /-- The model's own: the host's actions still to come, the next one first (log 5). -/
  pending   : List HostAction
  /-- The model's own: what the host's reads returned, oldest first (log 6). -/
  responses : List Response
  deriving DecidableEq, Repr

/-- How an operation of R85 ends: OK, an error with the state at the point it was raised (60_exceptions.md R201),
or a model fault (20_memory.md R62). -/
inductive OpResult where
  | ok (s : State)
  | raised (e : ErrorKind) (s : State)
  | fault (f : Fault)
  deriving DecidableEq, Repr

/-- STATUS after reset, the word 0x0000000F (R39). -/
def Status.reset : Status where
  code := .idle
  ethValid := false
  ipValid := false
  rdValid := false
  fmtValid := false
  isIpv4 := false
  lastOpc := 0#8

/-- Contents of a string region that R39 gives no value; unreadable until a command writes it (log 1). -/
def Str20.zero : Str20 := ⟨0#32, 0#32, 0#32, 0#32, 0#32⟩

/-- Contents of a string region that R39 gives no value; unreadable until a command writes it (log 1). -/
def Str16.zero : Str16 := ⟨0#32, 0#32, 0#32, 0#32⟩

/-- Contents of the ETH registers at reset, which R39 gives no value: DESIGN CHOICE 0 (log 1). -/
def EthGroup.zero : EthGroup where
  dstHi := 0#16
  dstLo := 0#32
  srcHi := 0#16
  srcLo := 0#32
  etherType := 0#16
  payloadLen := 0#16
  payloadOff := 0#16
  dstStr := .zero
  srcStr := .zero

/-- Contents of the IP registers at reset, which R39 gives no value: DESIGN CHOICE 0 (log 1). -/
def IpGroup.zero : IpGroup where
  version := 0#4
  ihl := 0#4
  hlen := 0#6
  tos := 0#8
  totLen := 0#16
  ident := 0#16
  flags := 0#3
  fragOff := 0#13
  ttl := 0#8
  proto := 0#8
  csum := 0#16
  src := 0#32
  dst := 0#32
  optLen := 0#16
  optOff := 0#16
  payloadOff := 0#16
  dstStrLen := 0#4
  srcStrLen := 0#4
  srcStr := .zero
  dstStr := .zero

/-- The state after reset (R39, R230): STATUS 0x0000000F, LEN 0, every group invalid, every FBUF byte unwritten,
no fault recorded. RD_VALUE and the groups' contents are DESIGN CHOICE 0 (log 1); no action is pending (log 5). -/
def State.reset : State where
  fbuf := []
  len := 0#16
  status := .reset
  eth := .zero
  ip := .zero
  rdValue := 0#32
  fmt := ⟨0#5, .zero⟩
  faults := []
  pending := []
  responses := []

end Sys2Proof.Machine
end

