-- ==== Sys2Proof/Machine/Flags.lean ====
section
/-! DEFINITION. The status flags: the values of CODE, the layout of the STATUS word, and every flag computation
of the spec (10_state.md R27, R38; 60_exceptions.md R202). -/

namespace Sys2Proof.Machine

/-- The bits of STATUS.CODE (R202). -/
def Code.toBits : Code → BitVec 4
  | .ok => 0x0#4
  | .truncatedFrame => 0x1#4
  | .truncatedHeader => 0x2#4
  | .malformedHeader => 0x3#4
  | .commandError => 0x4#4
  | .idle => 0xF#4

/-- CodeOf on the error kinds (R202). -/
def codeOf : ErrorKind → Code
  | .truncatedFrame => .truncatedFrame
  | .truncatedHeader => .truncatedHeader
  | .malformedHeader => .malformedHeader
  | .commandError => .commandError

/-- The STATUS word (R27), most significant field first: zeros, LAST_OPC, zeros, IS_IPV4, FMT_VALID, RD_VALID,
IP_VALID, ETH_VALID, CODE. -/
def Status.toWord (st : Status) : Word :=
  0#8 ++ (st.lastOpc ++ (0#7 ++ (BitVec.ofBool st.isIpv4 ++ (BitVec.ofBool st.fmtValid ++
    (BitVec.ofBool st.rdValid ++ (BitVec.ofBool st.ipValid ++ (BitVec.ofBool st.ethValid ++ st.code.toBits)))))))

/-- What every command does to STATUS before anything else (R25, 30_encoding.md R85): the four valid bits and
IS_IPV4 are cleared and LAST_OPC is written; CODE is left for the end. -/
def statusAtIssue (opc : Byte) (st : Status) : Status :=
  { st with
    ethValid := false
    ipValid := false
    rdValid := false
    fmtValid := false
    isIpv4 := false
    lastOpc := opc }

/-- The only EtherType ETH_DECODE interprets: 0x0800, the IPv4 code (40_ethernet.md R104). -/
def isIpv4Type (etherType : Half) : Bool := etherType == 0x0800#16

end Sys2Proof.Machine
end

