-- ==== Sys2Proof/Machine/Operands.lean ====
section
/-! DEFINITION. The one operand form of the block, the window FBUF[base:LEN) (30_encoding.md R81,
20_memory.md R63), and how fields are taken out of the bytes read (R64). -/

namespace Sys2Proof.Machine

/-- W, the length of the window: LEN − base when base ≤ LEN, else 0 (R63). -/
def windowLen (base : Nat) (s : State) : Nat :=
  if base ≤ s.len.toNat then s.len.toNat - base else 0

/-- Byte i of a byte sequence (R8). Past the end it gives 0, which pads string registers (10_state.md R35);
every other use lies inside the sequence. -/
def byteAt (h : List Byte) (i : Nat) : Byte := h.getD i 0#8

/-- The subsequence h[a:b) (R8). -/
def slice (h : List Byte) (a b : Nat) : List Byte := (h.drop a).take (b - a)

/-- be16(h, i): two bytes, the first the most significant (R64). -/
def be16 (h : List Byte) (i : Nat) : Half := byteAt h i ++ byteAt h (i + 1)

/-- be32(h, i): four bytes, the first the most significant (R64). -/
def be32 (h : List Byte) (i : Nat) : Word :=
  byteAt h i ++ (byteAt h (i + 1) ++ (byteAt h (i + 2) ++ byteAt h (i + 3)))

/-- be(s), the unsigned big-endian value of a byte sequence (R64). -/
def beValue (s : List Byte) : Nat := s.foldl (fun acc b => acc * 256 + b.toNat) 0

end Sys2Proof.Machine
end

