-- ==== Sys2Proof/Machine/Ops.lean ====
section
/-! DEFINITION. The named operations the meanings share: FBUF, MemRead, issuing and ending a command, taking an
error, recording a fault (20_memory.md R60 to R62; 30_encoding.md R84, R85; 60_exceptions.md R201, R209, R210). -/

namespace Sys2Proof.Machine

/-- FBUF[a]: the stored byte, or no value when the byte is unwritten (R61). -/
def Memory.read : Memory → Nat → Option Byte
  | [], _ => none
  | (b, v) :: rest, a => if a = b then some v else Memory.read rest a

/-- FBUF[a] <- v: stores the byte and marks it written (R61), keeping offsets strictly rising. -/
def Memory.write : Memory → Nat → Byte → Memory
  | [], a, v => [(a, v)]
  | (b, u) :: rest, a, v =>
    if a < b then (a, v) :: (b, u) :: rest
    else if a = b then (a, v) :: rest
    else (b, u) :: Memory.write rest a v

/-- The canonical form: offsets strictly rising. An unlisted offset reads as no value, so no entry repeats it (log 12). -/
def Memory.wf : Memory → Bool
  | [] => true
  | (a, _) :: rest => rest.all (fun c => decide (a < c.1)) && Memory.wf rest

/-- Every listed offset exists: it is below BUF_CAP (R60). -/
def Memory.inRange (m : Memory) : Bool := m.all (fun c => decide (c.1 < Config.bufCap))

/-- MemRead(a, n): the n bytes from offset a on, or the lowest unwritten offset among them (R62). -/
def memRead (m : Memory) (a : Nat) : Nat → Except Nat (List Byte)
  | 0 => .ok []
  | n + 1 =>
    match Memory.read m a with
    | none => .error a
    | some b =>
      match memRead m (a + 1) n with
      | .ok bs => .ok (b :: bs)
      | .error e => .error e

/-- The start of every command (R85): valid bits and IS_IPV4 cleared, LAST_OPC written. It is also what ends an
error: there is no other return from one (R210). -/
def beginCommand (opc : Byte) (s : State) : State := { s with status := statusAtIssue opc s.status }

/-- The end of a command: x[CODE] <- CodeOf(out) (R85). -/
def endCommand (code : Code) (s : State) : State := { s with status := { s.status with code := code } }

/-- Taking an error (R201, R210): CODE says which, LAST_OPC already names the command, and nothing else changes. -/
def takeError (e : ErrorKind) (s : State) : State := endCommand (codeOf e) s

/-- Enter a fault in the fault record, which nothing clears (R36, R209). -/
def recordFault (f : Fault) (s : State) : State := { s with faults := s.faults ++ [f] }

/-- The common head of every operation: fail with `e` when the window is shorter than the `need` bytes it reads,
else read them and go on; an unwritten byte among them is a fault (R62, R65, R205). -/
def withBytes (need : Nat) (e : ErrorKind) (base W : Nat) (s : State) (k : List Byte → OpResult) : OpResult :=
  if W < need then .raised e s
  else
    match memRead s.fbuf base need with
    | .error a => .fault (.unwrittenFrameByte a)
    | .ok h => k h

/-- How an operation's result ends the command (R85): OK and errors are next states with their CODE, a fault
stops `exec` (log 3). -/
def endOp : OpResult → Host.Outcome State Fault Refusal
  | .ok t => .next (endCommand .ok t)
  | .raised e t => .next (takeError e t)
  | .fault f => .fault f

/-- A command with a defined OPC and RSV = 0 (R85): clear, write LAST_OPC, COMMAND_ERROR when LEN > BUF_CAP
(R84(c)), else run the operation on the window and write CODE. -/
def runCommand (opc : Byte) (base : Nat) (op : Nat → Nat → State → OpResult) (s : State) :
    Host.Outcome State Fault Refusal :=
  let s1 := beginCommand opc s
  if Config.bufCap < s.len.toNat then .next (takeError .commandError s1)
  else endOp (op base (windowLen base s) s1)

end Sys2Proof.Machine
end

