-- ==== Sys2Proof/Machine/Render.lean ====
section
/-! DEFINITION. The string renderers and their packing into register words (00_scope.md R11; 10_state.md R35;
41_ipv4.md R131; 42_helpers.md R154, R155). A string is the list of its ASCII bytes. -/

namespace Sys2Proof.Machine

/-- The ASCII code of ':' (R11). -/
def colon : Byte := 0x3A#8

/-- The ASCII code of '.' (R11). -/
def dot : Byte := 0x2E#8

/-- The ASCII code of the decimal digit n, n below 10 (R11). -/
def decDigit (n : Nat) : Byte := BitVec.ofNat 8 (0x30 + n)

/-- HexDigit(n): the n-th character of "0123456789abcdef", n below 16 (R154). -/
def hexDigit (n : Nat) : Byte := if n < 10 then decDigit n else BitVec.ofNat 8 (0x61 + (n - 10))

/-- Hex2(b): the high nibble's digit, then the low nibble's, always two characters (R154). -/
def hex2 (b : Byte) : List Byte := [hexDigit (b.toNat / 16), hexDigit (b.toNat % 16)]

/-- MacString(m): six two-digit groups in byte order, joined by ':' (R155). -/
def macString (m : List Byte) : List Byte :=
  hex2 (byteAt m 0) ++ colon :: (hex2 (byteAt m 1) ++ colon :: (hex2 (byteAt m 2) ++ colon ::
    (hex2 (byteAt m 3) ++ colon :: (hex2 (byteAt m 4) ++ colon :: hex2 (byteAt m 5)))))

/-- Dec(n), n from 0 to 255: the decimal numeral, most significant digit first, no leading zeros (R131). -/
def dec (n : Nat) : List Byte :=
  if n < 10 then [decDigit n]
  else if n < 100 then [decDigit (n / 10), decDigit (n % 10)]
  else [decDigit (n / 100), decDigit (n / 10 % 10), decDigit (n % 10)]

/-- Dotted(o): the four octets in decimal, left to right, joined by '.' (R131). -/
def dotted (o : List Byte) : List Byte :=
  dec (byteAt o 0).toNat ++ dot :: (dec (byteAt o 1).toNat ++ dot ::
    (dec (byteAt o 2).toNat ++ dot :: dec (byteAt o 3).toNat))

/-- Word k of a string region: characters 4k to 4k + 3, the first the most significant byte; bytes past the
string's length are 0x00 (R35). -/
def packWord (cs : List Byte) (k : Nat) : Word :=
  byteAt cs (4 * k) ++ (byteAt cs (4 * k + 1) ++ (byteAt cs (4 * k + 2) ++ byteAt cs (4 * k + 3)))

/-- A string in a 20-byte region (R35). -/
def packStr20 (cs : List Byte) : Str20 where
  w0 := packWord cs 0
  w1 := packWord cs 1
  w2 := packWord cs 2
  w3 := packWord cs 3
  w4 := packWord cs 4

/-- A string in a 16-byte region (R35). -/
def packStr16 (cs : List Byte) : Str16 where
  w0 := packWord cs 0
  w1 := packWord cs 1
  w2 := packWord cs 2
  w3 := packWord cs 3

end Sys2Proof.Machine
end

