-- ==== Sys2Proof/Machine/Ethernet.lean ====
section
/-! DEFINITION. ETH_DECODE (40_ethernet.md R100 to R105). -/

namespace Sys2Proof.Machine

/-- The ETH group of a 14-byte header h at window base `base` of length W (R101): destination first (R103). -/
def ethGroupOf (base W : Nat) (h : List Byte) : EthGroup where
  dstHi := be16 h 0
  dstLo := be32 h 2
  srcHi := be16 h 6
  srcLo := be32 h 8
  etherType := be16 h 12
  payloadLen := BitVec.ofNat 16 (W - 14)
  payloadOff := BitVec.ofNat 16 (base + 14)
  dstStr := packStr20 (macString (slice h 0 6))
  srcStr := packStr20 (macString (slice h 6 12))

/-- Writing the ETH group (R101): its registers, ETH_VALID, and IS_IPV4 from the EtherType. -/
def writeEth (g : EthGroup) (s : State) : State :=
  { s with
    eth := g
    status := { s.status with ethValid := true, isIpv4 := isIpv4Type g.etherType } }

/-- The operation ETH_DECODE(base, W) of R101. -/
def ethDecodeOp (base W : Nat) (s : State) : OpResult :=
  withBytes 14 .truncatedFrame base W s fun h => .ok (writeEth (ethGroupOf base W h) s)

/-- ETH_DECODE (R101). -/
def execEthDecode (base : Nat) (s : State) : Host.Outcome State Fault Refusal :=
  runCommand 0x01#8 base ethDecodeOp s

end Sys2Proof.Machine
end

