-- ==== Sys2Proof/Machine/Ipv4.lean ====
section
/-! DEFINITION. IPV4_DECODE and IPV4_ADDR_FMT (41_ipv4.md R120 to R132). -/

namespace Sys2Proof.Machine

/-- VERSION: the high nibble of header byte 0 (R120). -/
def versionOf (h : List Byte) : BitVec 4 := (byteAt h 0).extractLsb' 4 4

/-- IHL: the low nibble of header byte 0 (R120). -/
def ihlOf (h : List Byte) : BitVec 4 := (byteAt h 0).extractLsb' 0 4

/-- HLEN = IHL × 4, from 0 to 60 (R121). -/
def hlenOf (h : List Byte) : Nat := (ihlOf h).toNat * 4

/-- FLAGS = ff >> 13, the top 3 bits (R123). -/
def flagsOf (ff : Half) : BitVec 3 := (ff >>> 13).setWidth 3

/-- FRAGOFF = ff & 0x1FFF, the bottom 13 bits (R123; C2). -/
def fragOffOf (ff : Half) : BitVec 13 := (ff &&& 0x1FFF#16).setWidth 13

/-- The IP group of a 20-byte header h at window base `base` (R122). Version, total length, checksum and protocol
are reported as read (R125 to R129). -/
def ipGroupOf (base : Nat) (h : List Byte) : IpGroup where
  version := versionOf h
  ihl := ihlOf h
  hlen := BitVec.ofNat 6 (hlenOf h)
  tos := byteAt h 1
  totLen := be16 h 2
  ident := be16 h 4
  flags := flagsOf (be16 h 6)
  fragOff := fragOffOf (be16 h 6)
  ttl := byteAt h 8
  proto := byteAt h 9
  csum := be16 h 10
  src := be32 h 12
  dst := be32 h 16
  optLen := BitVec.ofNat 16 (hlenOf h - 20)
  optOff := BitVec.ofNat 16 (base + 20)
  payloadOff := BitVec.ofNat 16 (base + hlenOf h)
  dstStrLen := BitVec.ofNat 4 (dotted (slice h 16 20)).length
  srcStrLen := BitVec.ofNat 4 (dotted (slice h 12 16)).length
  srcStr := packStr16 (dotted (slice h 12 16))
  dstStr := packStr16 (dotted (slice h 16 20))

/-- Writing the IP group (R122): its registers and IP_VALID. -/
def writeIp (g : IpGroup) (s : State) : State :=
  { s with ip := g, status := { s.status with ipValid := true } }

/-- The operation IPV4_DECODE(base, W) of R122, with its three checks in order (R124). All 20 bytes are read
before IHL is looked at (R65; log 14). -/
def ipv4DecodeOp (base W : Nat) (s : State) : OpResult :=
  withBytes 20 .truncatedHeader base W s fun h =>
    if hlenOf h < 20 then .raised .malformedHeader s
    else if W < hlenOf h then .raised .truncatedHeader s
    else .ok (writeIp (ipGroupOf base h) s)

/-- IPV4_DECODE (R122). -/
def execIpv4Decode (base : Nat) (s : State) : Host.Outcome State Fault Refusal :=
  runCommand 0x02#8 base ipv4DecodeOp s

/-- Writing the FMT group (10_state.md R33): the packed string, its length and FMT_VALID. -/
def writeFmt (cs : List Byte) (s : State) : State :=
  { s with
    fmt := ⟨BitVec.ofNat 5 cs.length, packStr20 cs⟩
    status := { s.status with fmtValid := true } }

/-- The operation IPV4_ADDR_FMT(base, W) of R132. -/
def ipv4AddrFmtOp (base W : Nat) (s : State) : OpResult :=
  withBytes 4 .truncatedFrame base W s fun h => .ok (writeFmt (dotted h) s)

/-- IPV4_ADDR_FMT (R132). -/
def execIpv4AddrFmt (base : Nat) (s : State) : Host.Outcome State Fault Refusal :=
  runCommand 0x21#8 base ipv4AddrFmtOp s

end Sys2Proof.Machine
end

