-- ==== Sys2Proof/Machine/Demux.lean ====
section
/-! DEFINITION. FRAME_DECODE, the demultiplexer (43_demux.md R170 to R173). -/

namespace Sys2Proof.Machine

/-- The operation FRAME_DECODE(base, W) of R171: the Ethernet decode; then, only when it succeeds with
EtherType 0x0800, the IPv4 decode of the payload's window. An IPv4 error keeps the ETH group (R172). -/
def frameDecodeOp (base W : Nat) (s : State) : OpResult :=
  match ethDecodeOp base W s with
  | .ok t =>
    match isIpv4Type t.eth.etherType with
    | true => ipv4DecodeOp (base + 14) (W - 14) t
    | false => .ok t
  | .raised e t => .raised e t
  | .fault f => .fault f

/-- FRAME_DECODE (R171). -/
def execFrameDecode (base : Nat) (s : State) : Host.Outcome State Fault Refusal :=
  runCommand 0x03#8 base frameDecodeOp s

end Sys2Proof.Machine
end

