-- ==== Sys2Proof/Machine/Helpers.lean ====
section
/-! DEFINITION. The big-endian readers and the MAC formatter (42_helpers.md R150 to R155). -/

namespace Sys2Proof.Machine

/-- Writing the RD group (10_state.md R32): RD_VALUE and RD_VALID. -/
def writeRd (v : Word) (s : State) : State :=
  { s with rdValue := v, status := { s.status with rdValid := true } }

/-- The operation RD_U16_BE(base, W) of R151: zero-extended, never sign-extended. -/
def rdU16BeOp (base W : Nat) (s : State) : OpResult :=
  withBytes 2 .truncatedFrame base W s fun h => .ok (writeRd ((be16 h 0).setWidth 32) s)

/-- RD_U16_BE (R151). -/
def execRdU16Be (base : Nat) (s : State) : Host.Outcome State Fault Refusal :=
  runCommand 0x10#8 base rdU16BeOp s

/-- The operation RD_U32_BE(base, W) of R152. -/
def rdU32BeOp (base W : Nat) (s : State) : OpResult :=
  withBytes 4 .truncatedFrame base W s fun h => .ok (writeRd (be32 h 0) s)

/-- RD_U32_BE (R152). -/
def execRdU32Be (base : Nat) (s : State) : Host.Outcome State Fault Refusal :=
  runCommand 0x11#8 base rdU32BeOp s

/-- The operation MAC_FMT(base, W) of R153. -/
def macFmtOp (base W : Nat) (s : State) : OpResult :=
  withBytes 6 .truncatedFrame base W s fun h => .ok (writeFmt (macString h) s)

/-- MAC_FMT (R153). -/
def execMacFmt (base : Nat) (s : State) : Host.Outcome State Fault Refusal :=
  runCommand 0x20#8 base macFmtOp s

end Sys2Proof.Machine
end

