-- ==== Sys2Proof/Machine/Dispatch.lean ====
section
/-! DEFINITION. One arm per command, each a direct call of its meaning. -/

namespace Sys2Proof.Machine

/-- What a command does when it is issued (30_encoding.md R85). -/
def exec (i : Instr) (s : State) : Host.Outcome State Fault Refusal :=
  match i with
  | .ethDecode base => Sys2Proof.Machine.execEthDecode base s
  | .ipv4Decode base => Sys2Proof.Machine.execIpv4Decode base s
  | .frameDecode base => Sys2Proof.Machine.execFrameDecode base s
  | .rdU16Be base => Sys2Proof.Machine.execRdU16Be base s
  | .rdU32Be base => Sys2Proof.Machine.execRdU32Be base s
  | .macFmt base => Sys2Proof.Machine.execMacFmt base s
  | .ipv4AddrFmt base => Sys2Proof.Machine.execIpv4AddrFmt base s

end Sys2Proof.Machine
end

