-- ==== Sys2Proof/Machine/Issue.lean ====
section
/-! DEFINITION. Issuing a command word (30_encoding.md R84, R85), and the entry of a fault that `exec` stopped on
into the fault record (20_memory.md R62, 60_exceptions.md R209). -/

namespace Sys2Proof.Machine

/-- A command that faulted leaves what R85's clearing left, and the fault recorded (R62; log 3, log 4). -/
def afterFault (opc : Byte) (f : Fault) (s : State) : State := recordFault f (beginCommand opc s)

/-- What the step adds around `exec`: a fault is recorded and the run goes on, never to be final (R36; log 3). -/
def recordOutcome (opc : Byte) (s : State) :
    Host.Outcome State Fault Refusal → Host.Outcome State Fault Refusal
  | .next t => .next t
  | .fault f => .next (afterFault opc f s)
  | .refused r => .refused r

/-- A host write of word c to CMD (R85): a word that decodes runs its command, any other is a COMMAND_ERROR
that reads no FBUF byte (R84(a), R84(b)). -/
def issueWord (c : Word) (s : State) : Host.Outcome State Fault Refusal :=
  match decode c with
  | some i => recordOutcome (cmdOpc c) s (exec i s)
  | none => .next (takeError .commandError (beginCommand (cmdOpc c) s))

end Sys2Proof.Machine
end

