-- ==== Sys2Proof/Machine/Registers.lean ====
section
/-! DEFINITION. The register map (10_state.md R24), which group gates each register (R25) and what a read of it
gives (R26 to R35). -/

namespace Sys2Proof.Machine

/-- The four result groups (R25). -/
inductive Group where
  | eth
  | ip
  | rd
  | fmt
  deriving DecidableEq, Repr

/-- The registers of the map, in its order (R24). -/
inductive Reg where
  | cmd | status | len | cap
  | ethDstHi | ethDstLo | ethSrcHi | ethSrcLo | ethType | ethPayload
  | ipVerIhl | ipTos | ipTotLen | ipId | ipFlags | ipFragOff | ipTtl | ipProto | ipCsum | ipSrc | ipDst
  | ipOpt | ipPayload | ipStrLen
  | rdValue | fmtLen
  | fmtStr0 | fmtStr1 | fmtStr2 | fmtStr3 | fmtStr4
  | ethDstStr0 | ethDstStr1 | ethDstStr2 | ethDstStr3 | ethDstStr4
  | ethSrcStr0 | ethSrcStr1 | ethSrcStr2 | ethSrcStr3 | ethSrcStr4
  | ipSrcStr0 | ipSrcStr1 | ipSrcStr2 | ipSrcStr3
  | ipDstStr0 | ipDstStr1 | ipDstStr2 | ipDstStr3
  deriving DecidableEq, Repr

/-- The control registers (R24). -/
def controlMap : List (Nat × Reg) :=
  [(0x000, .cmd), (0x004, .status), (0x008, .len), (0x00C, .cap)]

/-- The ETH registers but for their strings (R24). -/
def ethMap : List (Nat × Reg) :=
  [(0x010, .ethDstHi), (0x014, .ethDstLo), (0x018, .ethSrcHi), (0x01C, .ethSrcLo), (0x020, .ethType),
   (0x024, .ethPayload)]

/-- The IP registers but for their strings (R24). -/
def ipMap : List (Nat × Reg) :=
  [(0x030, .ipVerIhl), (0x034, .ipTos), (0x038, .ipTotLen), (0x03C, .ipId), (0x040, .ipFlags), (0x044, .ipFragOff),
   (0x048, .ipTtl), (0x04C, .ipProto), (0x050, .ipCsum), (0x054, .ipSrc), (0x058, .ipDst), (0x05C, .ipOpt),
   (0x060, .ipPayload), (0x064, .ipStrLen)]

/-- The RD and FMT registers (R24). -/
def rdFmtMap : List (Nat × Reg) :=
  [(0x070, .rdValue), (0x074, .fmtLen), (0x080, .fmtStr0), (0x084, .fmtStr1), (0x088, .fmtStr2),
   (0x08C, .fmtStr3), (0x090, .fmtStr4)]

/-- The strings of the ETH group (R24). -/
def ethStrMap : List (Nat × Reg) :=
  [(0x0A0, .ethDstStr0), (0x0A4, .ethDstStr1), (0x0A8, .ethDstStr2), (0x0AC, .ethDstStr3), (0x0B0, .ethDstStr4),
   (0x0C0, .ethSrcStr0), (0x0C4, .ethSrcStr1), (0x0C8, .ethSrcStr2), (0x0CC, .ethSrcStr3), (0x0D0, .ethSrcStr4)]

/-- The strings of the IP group (R24). -/
def ipStrMap : List (Nat × Reg) :=
  [(0x0E0, .ipSrcStr0), (0x0E4, .ipSrcStr1), (0x0E8, .ipSrcStr2), (0x0EC, .ipSrcStr3),
   (0x0F0, .ipDstStr0), (0x0F4, .ipDstStr1), (0x0F8, .ipDstStr2), (0x0FC, .ipDstStr3)]

/-- The register map: offset and register (R24). An offset not listed is reserved (R23(d)). -/
def regMap : List (Nat × Reg) := controlMap ++ ethMap ++ ipMap ++ rdFmtMap ++ ethStrMap ++ ipStrMap

/-- The register at an offset, `none` at a reserved one (R23(d), R24). -/
def regAt (offset : Nat) : Option Reg := regMap.lookup offset

/-- The group whose valid bit gates a register; `none` is "—", not gated (R24). -/
def Reg.group : Reg → Option Group
  | .cmd | .status | .len | .cap => none
  | .ethDstHi | .ethDstLo | .ethSrcHi | .ethSrcLo | .ethType | .ethPayload => some .eth
  | .ipVerIhl | .ipTos | .ipTotLen | .ipId | .ipFlags | .ipFragOff | .ipTtl | .ipProto | .ipCsum | .ipSrc | .ipDst
  | .ipOpt | .ipPayload | .ipStrLen => some .ip
  | .rdValue => some .rd
  | .fmtLen => some .fmt
  | .fmtStr0 | .fmtStr1 | .fmtStr2 | .fmtStr3 | .fmtStr4 => some .fmt
  | .ethDstStr0 | .ethDstStr1 | .ethDstStr2 | .ethDstStr3 | .ethDstStr4 => some .eth
  | .ethSrcStr0 | .ethSrcStr1 | .ethSrcStr2 | .ethSrcStr3 | .ethSrcStr4 => some .eth
  | .ipSrcStr0 | .ipSrcStr1 | .ipSrcStr2 | .ipSrcStr3 => some .ip
  | .ipDstStr0 | .ipDstStr1 | .ipDstStr2 | .ipDstStr3 => some .ip

/-- A group's valid bit (R25, R27). -/
def groupValid (st : Status) : Group → Bool
  | .eth => st.ethValid
  | .ip => st.ipValid
  | .rd => st.rdValid
  | .fmt => st.fmtValid

/-- Whether a read of a register is not gated off: it has no group or its group is valid (R36). -/
def readable (st : Status) (r : Reg) : Bool :=
  match r.group with
  | none => true
  | some g => groupValid st g

/-- The word a register holds, its fields placed as the map says and zeros elsewhere (R24, R23(e)). CMD reads 0
(R26), CAP reads BUF_CAP (R29). -/
def regWord (s : State) : Reg → Word
  | .cmd => 0#32
  | .status => s.status.toWord
  | .len => s.len.setWidth 32
  | .cap => BitVec.ofNat 32 Config.bufCap
  | .ethDstHi => s.eth.dstHi.setWidth 32
  | .ethDstLo => s.eth.dstLo
  | .ethSrcHi => s.eth.srcHi.setWidth 32
  | .ethSrcLo => s.eth.srcLo
  | .ethType => s.eth.etherType.setWidth 32
  | .ethPayload => s.eth.payloadLen ++ s.eth.payloadOff
  | .ipVerIhl => 0#10 ++ (s.ip.hlen ++ (0#4 ++ (s.ip.ihl ++ (0#4 ++ s.ip.version))))
  | .ipTos => s.ip.tos.setWidth 32
  | .ipTotLen => s.ip.totLen.setWidth 32
  | .ipId => s.ip.ident.setWidth 32
  | .ipFlags => s.ip.flags.setWidth 32
  | .ipFragOff => s.ip.fragOff.setWidth 32
  | .ipTtl => s.ip.ttl.setWidth 32
  | .ipProto => s.ip.proto.setWidth 32
  | .ipCsum => s.ip.csum.setWidth 32
  | .ipSrc => s.ip.src
  | .ipDst => s.ip.dst
  | .ipOpt => s.ip.optLen ++ s.ip.optOff
  | .ipPayload => s.ip.payloadOff.setWidth 32
  | .ipStrLen => 0#20 ++ (s.ip.dstStrLen ++ (0#4 ++ s.ip.srcStrLen))
  | .rdValue => s.rdValue
  | .fmtLen => s.fmt.len.setWidth 32
  | .fmtStr0 => s.fmt.str.w0
  | .fmtStr1 => s.fmt.str.w1
  | .fmtStr2 => s.fmt.str.w2
  | .fmtStr3 => s.fmt.str.w3
  | .fmtStr4 => s.fmt.str.w4
  | .ethDstStr0 => s.eth.dstStr.w0
  | .ethDstStr1 => s.eth.dstStr.w1
  | .ethDstStr2 => s.eth.dstStr.w2
  | .ethDstStr3 => s.eth.dstStr.w3
  | .ethDstStr4 => s.eth.dstStr.w4
  | .ethSrcStr0 => s.eth.srcStr.w0
  | .ethSrcStr1 => s.eth.srcStr.w1
  | .ethSrcStr2 => s.eth.srcStr.w2
  | .ethSrcStr3 => s.eth.srcStr.w3
  | .ethSrcStr4 => s.eth.srcStr.w4
  | .ipSrcStr0 => s.ip.srcStr.w0
  | .ipSrcStr1 => s.ip.srcStr.w1
  | .ipSrcStr2 => s.ip.srcStr.w2
  | .ipSrcStr3 => s.ip.srcStr.w3
  | .ipDstStr0 => s.ip.dstStr.w0
  | .ipDstStr1 => s.ip.dstStr.w1
  | .ipDstStr2 => s.ip.dstStr.w2
  | .ipDstStr3 => s.ip.dstStr.w3

/-- A register read (R23, R36): a reserved offset reads 0, an invalid group's register has no value and faults,
any other register gives its word. -/
def readReg (s : State) (offset : Nat) : Except Fault Word :=
  match regAt offset with
  | none => .ok 0#32
  | some r =>
    match readable s.status r with
    | true => .ok (regWord s r)
    | false => .error (.readOfInvalidResult offset)

end Sys2Proof.Machine
end

