-- ==== Sys2Proof/Machine/HostActions.lean ====
section
/-! DEFINITION. What each host action does (10_state.md R20, R23, R26, R28, R36, R37; 20_memory.md R61;
70_reset_and_hazards.md R230). -/

namespace Sys2Proof.Machine

/-- Whether a REG access is inside the interface: a whole word, at a multiple of 4, below 0x100 (R23(c)). -/
def regAccessOk (size : AccessSize) (offset : Nat) : Bool :=
  decide (size = .word) && decide (offset % 4 = 0) && decide (offset < 0x100)

/-- Whether an FBUF access is inside the interface: a byte, below BUF_CAP (R61(c), R61(d); log 10). -/
def fbufAccessOk (size : AccessSize) (offset : Nat) : Bool :=
  decide (size = .byte) && decide (offset < Config.bufCap)

/-- Return a value to the host (log 6). -/
def respond (r : Response) (s : State) : State := { s with responses := s.responses ++ [r] }

/-- A register read: the value is returned, or the fault recorded and nothing returned (R36; log 3). -/
def hostReadReg (offset : Nat) (s : State) : State :=
  match readReg s offset with
  | .ok v => respond (.word v) s
  | .error f => recordFault f s

/-- A register write: CMD issues a command (R26), LEN stores its low 16 bits (R28), any other offset of the map is
ignored (R23(d), R37). -/
def hostWriteReg (offset : Nat) (v : Word) (s : State) : Host.Outcome State Fault Refusal :=
  match regAt offset with
  | some .cmd => issueWord v s
  | some .len => .next { s with len := v.setWidth 16 }
  | _ => .next s

/-- An FBUF byte read: the stored byte, or the fault of an unwritten one recorded (R61(b)). -/
def hostReadFbuf (offset : Nat) (s : State) : State :=
  match Memory.read s.fbuf offset with
  | some b => respond (.byte b) s
  | none => recordFault (.unwrittenFrameByte offset) s

/-- An FBUF byte write: the low 8 bits of the data are stored and the byte marked written (R61(a); log 19). -/
def hostWriteFbuf (offset : Nat) (v : Word) (s : State) : State :=
  { s with fbuf := Memory.write s.fbuf offset (v.setWidth 8) }

/-- Reset (R230): every piece of state at its reset value but the fault record, which no reset within a run clears
(R36); the host's own list of actions and what it read are no state of the block (log 11). -/
def resetBlock (s : State) : State :=
  { State.reset with faults := s.faults, pending := s.pending, responses := s.responses }

/-- One host action (R12): a step, or a refusal for an access outside the interface (R23, R61, R209; log 20). -/
def perform (a : HostAction) (s : State) : Host.Outcome State Fault Refusal :=
  match a with
  | .regRead size offset =>
    match regAccessOk size offset with
    | true => .next (hostReadReg offset s)
    | false => .refused .hostAccessOutOfInterface
  | .regWrite size offset v =>
    match regAccessOk size offset with
    | true => hostWriteReg offset v s
    | false => .refused .hostAccessOutOfInterface
  | .fbufRead size offset =>
    match fbufAccessOk size offset with
    | true => .next (hostReadFbuf offset s)
    | false => .refused .hostAccessOutOfInterface
  | .fbufWrite size offset v =>
    match fbufAccessOk size offset with
    | true => .next (hostWriteFbuf offset v s)
    | false => .refused .hostAccessOutOfInterface
  | .reset => .next (resetBlock s)

/-- The host action that issues command word c: a word write to CMD, offset 0x000 (R26). -/
def cmdWrite (c : Word) : HostAction := .regWrite .word 0x000 c

end Sys2Proof.Machine
end

