-- ==== Sys2Proof/Machine/Step.lean ====
section
/-! DEFINITION. One step of the machine: the next host action, in the host's one total order (20_memory.md R70).
With no action left the block is idle and keeps its state (60_exceptions.md R216). -/

namespace Sys2Proof.Machine

/-- The host action is taken off the list. -/
def State.withPending (s : State) (l : List HostAction) : State := { s with pending := l }

/-- Perform the host's next action (R70; log 5), or stay idle when there is none (R216; log 7). -/
def step (s : State) : Host.Outcome State Fault Refusal :=
  match s.pending with
  | [] => .next s
  | a :: rest => perform a (s.withPending rest)

/-- The table word `w` as the host's very next action: a word write of it to CMD (R26; log 5, log 2). -/
def State.withFetchWord (s : State) (nbits w : Nat) : State :=
  s.withPending (cmdWrite (BitVec.ofNat 32 (w % 2 ^ nbits)) :: s.pending)

end Sys2Proof.Machine
end

