-- ==== Sys2Proof/Machine/Assembler.lean ====
section
/-! DEFINITION. The assembler syntax and the pseudo-instructions (30_encoding.md R86, R87). A text line is the list
of its characters. -/

namespace Sys2Proof.Machine

/-- One assembler line: a command, a raw word, or a pseudo-instruction (R86, R87). -/
inductive AsmLine where
  | command (i : Instr)
  | word (v : Nat)
  | decode
  | rdEthertype (b : Nat)
  | macFmtDst (b : Nat)
  | macFmtSrc (b : Nat)
  | ipv4AfterEth (b : Nat)
  deriving DecidableEq, Repr

/-- The one command a line stands for (R87); a raw word stands for none. -/
def expandLine : AsmLine → Option Instr
  | .command i => some i
  | .word _ => none
  | .decode => some (.frameDecode 0)
  | .rdEthertype b => some (.rdU16Be (b + 12))
  | .macFmtDst b => some (.macFmt b)
  | .macFmtSrc b => some (.macFmt (b + 6))
  | .ipv4AfterEth b => some (.ipv4Decode (b + 14))

/-- The word a line assembles to; `none` is an assembly error: a base above 65535, an expansion whose condition
fails (R87), or a `.word` value wider than 32 bits (R86). -/
def assembleLine : AsmLine → Option Word
  | .word v => if v < 2 ^ 32 then some (BitVec.ofNat 32 v) else none
  | l =>
    match expandLine l with
    | some i =>
      match i.wellFormed with
      | true => some (encode i)
      | false => none
    | none => none

/-- The value of a digit character, up to `radix` (R86; log 15). -/
def digitValue (radix : Nat) (c : Char) : Option Nat :=
  let n := c.toNat
  let d :=
    if 48 ≤ n ∧ n ≤ 57 then some (n - 48)
    else if 97 ≤ n ∧ n ≤ 102 then some (n - 87)
    else if 65 ≤ n ∧ n ≤ 70 then some (n - 55)
    else none
  d.bind fun v => if v < radix then some v else none

/-- A numeral in a radix, `acc` being the digits read so far. -/
def readDigits (radix : Nat) : Nat → List Char → Option Nat
  | acc, [] => some acc
  | acc, c :: cs =>
    match digitValue radix c with
    | some d => readDigits radix (acc * radix + d) cs
    | none => none

/-- A decimal or `0x` hexadecimal integer: R86's notation of a base, which the model takes for every number of a line
(log 15). -/
def readNumber : List Char → Option Nat
  | [] => none
  | ['0', 'x'] => none
  | '0' :: 'x' :: cs => readDigits 16 0 cs
  | cs => readDigits 10 0 cs

/-- The text before a comment: a `;` starts one (R86). -/
def dropComment : List Char → List Char
  | [] => []
  | c :: cs => if c = ';' then [] else c :: dropComment cs

/-- The words of a line, `cur` being the one being read; spaces and tabs separate (log 15). -/
def lineTokens (cur : List Char) : List Char → List (List Char)
  | [] => if cur.isEmpty then [] else [cur]
  | c :: cs =>
    if c = ' ' ∨ c = '\t' then
      (if cur.isEmpty then lineTokens [] cs else cur :: lineTokens [] cs)
    else lineTokens (cur ++ [c]) cs

/-- The mnemonics of the commands, upper case (R82, R86). -/
def commandNames : List (List Char × (Nat → Instr)) :=
  [(['E', 'T', 'H', '_', 'D', 'E', 'C', 'O', 'D', 'E'], .ethDecode),
   (['I', 'P', 'V', '4', '_', 'D', 'E', 'C', 'O', 'D', 'E'], .ipv4Decode),
   (['F', 'R', 'A', 'M', 'E', '_', 'D', 'E', 'C', 'O', 'D', 'E'], .frameDecode),
   (['R', 'D', '_', 'U', '1', '6', '_', 'B', 'E'], .rdU16Be),
   (['R', 'D', '_', 'U', '3', '2', '_', 'B', 'E'], .rdU32Be),
   (['M', 'A', 'C', '_', 'F', 'M', 'T'], .macFmt),
   (['I', 'P', 'V', '4', '_', 'A', 'D', 'D', 'R', '_', 'F', 'M', 'T'], .ipv4AddrFmt)]

/-- The pseudo-instructions with an operand (R87). -/
def pseudoNames : List (List Char × (Nat → AsmLine)) :=
  [(['R', 'D', '_', 'E', 'T', 'H', 'E', 'R', 'T', 'Y', 'P', 'E'], .rdEthertype),
   (['M', 'A', 'C', '_', 'F', 'M', 'T', '_', 'D', 'S', 'T'], .macFmtDst),
   (['M', 'A', 'C', '_', 'F', 'M', 'T', '_', 'S', 'R', 'C'], .macFmtSrc),
   (['I', 'P', 'V', '4', '_', 'A', 'F', 'T', 'E', 'R', '_', 'E', 'T', 'H'], .ipv4AfterEth)]

/-- A mnemonic alone: a command at base 0, or DECODE (R87). -/
def parseNoOperand (m : List Char) : Option AsmLine :=
  if m = ['D', 'E', 'C', 'O', 'D', 'E'] then some .decode
  else (commandNames.lookup m).map fun mk => .command (mk 0)

/-- A mnemonic with one number, or `.word` (R86, R87). -/
def parseOperand (m : List Char) (v : Nat) : Option AsmLine :=
  if m = ['.', 'w', 'o', 'r', 'd'] then some (.word v)
  else
    match commandNames.lookup m with
    | some mk => some (.command (mk v))
    | none => (pseudoNames.lookup m).map fun mk => mk v

/-- A text line: `none` is an assembly error, `some none` an empty line (R86). The v of `.word`, which R86 shows in
hexadecimal only, and the b of a pseudo-instruction are read in either notation, as a base is (log 15). -/
def parseLine (text : List Char) : Option (Option AsmLine) :=
  match lineTokens [] (dropComment text) with
  | [] => some none
  | [m] => (parseNoOperand m).map some
  | [m, n] => (readNumber n).bind fun v => (parseOperand m v).map some
  | _ => none

/-- The word a text line assembles to: `none` is an assembly error, `some none` a line without a command (R86). -/
def assembleText (text : List Char) : Option (Option Word) :=
  match parseLine text with
  | none => none
  | some none => some none
  | some (some l) => (assembleLine l).map some

end Sys2Proof.Machine
end

