-- ==== Sys2Proof/Machine/System.lean ====
section
/-! DEFINITION. A system of N_INST independent blocks (60_exceptions.md R215): one list, one state each, nothing
shared. -/

namespace Sys2Proof.Machine

/-- The blocks of a system, each with its own FBUF, LEN, STATUS and result registers (R215); their capacity is common,
the model's choice (log 21). -/
structure System where
  blocks : List State
  deriving DecidableEq, Repr

/-- N_INST blocks, each after reset (R215, R230). -/
def System.reset : System := ⟨List.replicate Config.nInst State.reset⟩

/-- The j-th block of a system steps, the others stand still (R215). An index that names no block is outside the
interface (log 9). -/
def System.step (j : Nat) (S : System) : Host.Outcome System Fault Refusal :=
  match S.blocks[j]? with
  | none => .refused .hostAccessOutOfInterface
  | some s =>
    match Sys2Proof.Machine.step s with
    | .next t => .next ⟨S.blocks.set j t⟩
    | .fault f => .fault f
    | .refused r => .refused r

end Sys2Proof.Machine
end

