-- ==== Sys2Proof/Safety.lean ====
section
/-! DEFINITION. The terms claims are stated in: read sets and the host's duties (20_memory.md R65,
70_reset_and_hazards.md R232), the observation of a run (R237), the test-side header encoder (41_ipv4.md R133),
and the invariant every step keeps. -/

namespace Sys2Proof.Machine

/-- How many bytes a command reads first, and so the shortest window it accepts (R65, R205). -/
def firstRead : Instr → Nat
  | .ethDecode _ => 14
  | .ipv4Decode _ => 20
  | .frameDecode _ => 14
  | .rdU16Be _ => 2
  | .rdU32Be _ => 4
  | .macFmt _ => 6
  | .ipv4AddrFmt _ => 4

/-- The error of a window that is too short (R203, R204). -/
def shortError : Instr → ErrorKind
  | .ipv4Decode _ => .truncatedHeader
  | .ethDecode _ | .frameDecode _ | .rdU16Be _ | .rdU32Be _ | .macFmt _ | .ipv4AddrFmt _ => .truncatedFrame

/-- The second part of FRAME_DECODE's read set (R65): w[14:34), when the Ethernet step succeeds with EtherType 0x0800
and at least 20 payload bytes are there. -/
def secondRead (i : Instr) (s : State) : List Nat :=
  match i with
  | .frameDecode base =>
    match memRead s.fbuf base 14 with
    | .ok h =>
      if isIpv4Type (be16 h 12) && decide (34 ≤ windowLen base s) then List.range' (base + 14) 20 else []
    | .error _ => []
  | .ethDecode _ | .ipv4Decode _ | .rdU16Be _ | .rdU32Be _ | .macFmt _ | .ipv4AddrFmt _ => []

/-- The read set of a command, as FBUF offsets (R65). A COMMAND_ERROR and a failed length check read nothing. -/
def readSet (i : Instr) (s : State) : List Nat :=
  if Config.bufCap < s.len.toNat then []
  else if windowLen i.base s < firstRead i then []
  else List.range' i.base (firstRead i) ++ secondRead i s

/-- What the host owes a command before its CMD write (R232): every byte of the read set written. -/
def CommandReady (i : Instr) (s : State) : Prop := ∀ a ∈ readSet i s, (Memory.read s.fbuf a).isSome = true

/-- What a run shows at its end (R237): STATUS, LEN and the readable result registers. The fault record is empty
in a run that has an observation. -/
structure Observation where
  status  : Word
  len     : Word
  results : List (Nat × Word)
  deriving DecidableEq, Repr

/-- The result registers whose group is valid, with their values (R237). -/
def visibleResults (s : State) : List (Nat × Word) :=
  regMap.filterMap fun p =>
    match p.2.group.isSome && readable s.status p.2 with
    | true => some (p.1, regWord s p.2)
    | false => none

/-- The observation of a run that ends in this state: none while the host has an action left, none with a fault
recorded (R237, R36). A refused action never reaches a state (R209). -/
def observe (s : State) : Option Observation :=
  match s.pending, s.faults with
  | [], [] => some ⟨s.status.toWord, s.len.setWidth 32, visibleResults s⟩
  | _, _ => none

/-- The field record of an IPv4 header: every bit of its 20 bytes (R133). -/
structure Ipv4Fields where
  version : BitVec 4
  ihl     : BitVec 4
  tos     : Byte
  totLen  : Half
  ident   : Half
  flags   : BitVec 3
  fragOff : BitVec 13
  ttl     : Byte
  proto   : Byte
  csum    : Half
  src     : Word
  dst     : Word
  deriving DecidableEq, Repr

/-- The field record the IP group reports (R133). -/
def IpGroup.toFields (g : IpGroup) : Ipv4Fields where
  version := g.version
  ihl := g.ihl
  tos := g.tos
  totLen := g.totLen
  ident := g.ident
  flags := g.flags
  fragOff := g.fragOff
  ttl := g.ttl
  proto := g.proto
  csum := g.csum
  src := g.src
  dst := g.dst

/-- Byte `k` of a word, bits [8k+7:8k]. -/
def byteOf {n : Nat} (v : BitVec n) (k : Nat) : Byte := v.extractLsb' (8 * k) 8

/-- Encode(f) of R133: a test-side function, not a command of the block. -/
def encodeHeader (f : Ipv4Fields) : List Byte :=
  [f.version ++ f.ihl, f.tos, byteOf f.totLen 1, byteOf f.totLen 0, byteOf f.ident 1, byteOf f.ident 0,
   byteOf (f.flags ++ f.fragOff) 1, byteOf (f.flags ++ f.fragOff) 0, f.ttl, f.proto,
   byteOf f.csum 1, byteOf f.csum 0, byteOf f.src 3, byteOf f.src 2, byteOf f.src 1, byteOf f.src 0,
   byteOf f.dst 3, byteOf f.dst 2, byteOf f.dst 1, byteOf f.dst 0]

/-- The window of s from `base` on holds the bytes w 0, …, w (n−1), all written (R63). -/
def WindowHolds (s : State) (base n : Nat) (w : Nat → Byte) : Prop :=
  ∀ k, k < n → Memory.read s.fbuf (base + k) = some (w k)

/-- `a` is the lowest unwritten offset of the n bytes from `base` on (R62). -/
def FirstUnwritten (s : State) (base n a : Nat) : Prop :=
  base ≤ a ∧ a < base + n ∧ Memory.read s.fbuf a = none ∧
    ∀ b, base ≤ b → b < a → Memory.read s.fbuf b ≠ none

/-- What R30 and R101 say the ETH registers hold after the header bytes w 0, …, w 13 of a window at `base` in a frame
of `len` bytes, field by field from the rules (R34 for the byte order). -/
def ethFromRules (base len : Nat) (w : Nat → Byte) : EthGroup where
  dstHi := w 0 ++ w 1
  dstLo := w 2 ++ (w 3 ++ (w 4 ++ w 5))
  srcHi := w 6 ++ w 7
  srcLo := w 8 ++ (w 9 ++ (w 10 ++ w 11))
  etherType := w 12 ++ w 13
  payloadLen := BitVec.ofNat 16 (len - base - 14)
  payloadOff := BitVec.ofNat 16 (base + 14)
  dstStr := packStr20 (macString [w 0, w 1, w 2, w 3, w 4, w 5])
  srcStr := packStr20 (macString [w 6, w 7, w 8, w 9, w 10, w 11])

/-- The 16-bit flags and fragment-offset field of the header bytes, as a number (R123). -/
def flagsField (w : Nat → Byte) : Nat := (w 6).toNat * 256 + (w 7).toNat

/-- IHL of the header bytes: the low nibble of byte 0, as a number (R121). -/
def ihlField (w : Nat → Byte) : Nat := (w 0).toNat % 16

/-- What R31 and R122 say the IP registers hold after the header bytes w 0, …, w 19 at `base`, field by field from
the rules, by arithmetic on numbers. -/
def ipFromRules (base : Nat) (w : Nat → Byte) : IpGroup where
  version := BitVec.ofNat 4 ((w 0).toNat / 16)
  ihl := BitVec.ofNat 4 (ihlField w)
  hlen := BitVec.ofNat 6 (ihlField w * 4)
  tos := w 1
  totLen := w 2 ++ w 3
  ident := w 4 ++ w 5
  flags := BitVec.ofNat 3 (flagsField w / 8192)
  fragOff := BitVec.ofNat 13 (flagsField w % 8192)
  ttl := w 8
  proto := w 9
  csum := w 10 ++ w 11
  src := w 12 ++ (w 13 ++ (w 14 ++ w 15))
  dst := w 16 ++ (w 17 ++ (w 18 ++ w 19))
  optLen := BitVec.ofNat 16 (ihlField w * 4 - 20)
  optOff := BitVec.ofNat 16 (base + 20)
  payloadOff := BitVec.ofNat 16 (base + ihlField w * 4)
  dstStrLen := BitVec.ofNat 4 (dotted [w 16, w 17, w 18, w 19]).length
  srcStrLen := BitVec.ofNat 4 (dotted [w 12, w 13, w 14, w 15]).length
  srcStr := packStr16 (dotted [w 12, w 13, w 14, w 15])
  dstStr := packStr16 (dotted [w 16, w 17, w 18, w 19])

/-- The result groups a command may make valid (R25). -/
def groupsOf : Instr → List Group
  | .ethDecode _ => [.eth]
  | .ipv4Decode _ => [.ip]
  | .frameDecode _ => [.eth, .ip]
  | .rdU16Be _ | .rdU32Be _ => [.rd]
  | .macFmt _ | .ipv4AddrFmt _ => [.fmt]

/-- The reserved offsets of the register map, as R24 lists them. -/
def reservedOffsets : List Nat :=
  [0x028, 0x02C, 0x068, 0x06C, 0x078, 0x07C, 0x094, 0x098, 0x09C, 0x0B4, 0x0B8, 0x0BC, 0x0D4, 0x0D8, 0x0DC]

/-- The reserved OPC values, as R83 lists them. -/
def reservedOpc (n : Nat) : Prop :=
  n = 0x00 ∨ (0x04 ≤ n ∧ n ≤ 0x0F) ∨ (0x12 ≤ n ∧ n ≤ 0x1F) ∨ (0x22 ≤ n ∧ n ≤ 0xFF)

/-- The host accesses R23(c), R61(c), R61(d) and R209 put outside the interface (log 10 for wide FBUF accesses). -/
def outsideInterface : HostAction → Prop
  | .regRead size offset => size ≠ .word ∨ offset % 4 ≠ 0 ∨ 0x100 ≤ offset
  | .regWrite size offset _ => size ≠ .word ∨ offset % 4 ≠ 0 ∨ 0x100 ≤ offset
  | .fbufRead size offset => size ≠ .byte ∨ Config.bufCap ≤ offset
  | .fbufWrite size offset _ => size ≠ .byte ∨ Config.bufCap ≤ offset
  | .reset => False

/-- What every state a run reaches satisfies. -/
structure Inv (s : State) : Prop where
  /-- FBUF is in its canonical form (log 12). -/
  fbufWf : s.fbuf.wf = true
  /-- FBUF lists only offsets below BUF_CAP (R60). -/
  fbufInRange : s.fbuf.inRange = true
  /-- IS_IPV4 is 1 exactly when ETH_VALID = 1 and ETHERTYPE = 0x0800 (R27). -/
  isIpv4 : s.status.isIpv4 = (s.status.ethValid && isIpv4Type s.eth.etherType)
  /-- A valid ETH group comes from ETH_DECODE, which then ended OK, or from FRAME_DECODE, whose IPv4 step may have
  failed (R25, R172). -/
  ethFrom : s.status.ethValid = true →
    (s.status.lastOpc = 0x01#8 ∧ s.status.code = .ok) ∨
    (s.status.lastOpc = 0x03#8 ∧
      (s.status.code = .ok ∨ s.status.code = .truncatedHeader ∨ s.status.code = .malformedHeader))
  /-- A valid IP group comes from IPV4_DECODE, or from FRAME_DECODE with a valid IPv4 ETH group beside it (R25, R172). -/
  ipFrom : s.status.ipValid = true →
    s.status.code = .ok ∧ (s.status.lastOpc = 0x02#8 ∨ (s.status.lastOpc = 0x03#8 ∧ s.status.isIpv4 = true))
  /-- A valid RD group comes from a reader (R25); a 16-bit read is zero-extended (R32). -/
  rdFrom : s.status.rdValid = true →
    s.status.code = .ok ∧
      ((s.status.lastOpc = 0x10#8 ∧ s.rdValue.toNat < 2 ^ 16) ∨ s.status.lastOpc = 0x11#8)
  /-- A valid FMT group comes from a formatter: 17 characters, or 7 to 15 (R25, R33). -/
  fmtFrom : s.status.fmtValid = true →
    s.status.code = .ok ∧
      ((s.status.lastOpc = 0x20#8 ∧ s.fmt.len.toNat = 17) ∨
        (s.status.lastOpc = 0x21#8 ∧ 7 ≤ s.fmt.len.toNat ∧ s.fmt.len.toNat ≤ 15))
  /-- A valid header has IHL at least 5, HLEN = IHL × 4, and options between offset 20 and HLEN (R121, R128, R130). -/
  ipShape : s.status.ipValid = true →
    5 ≤ s.ip.ihl.toNat ∧ s.ip.hlen.toNat = s.ip.ihl.toNat * 4 ∧
      s.ip.optLen.toNat + 20 = s.ip.hlen.toNat ∧
      s.ip.payloadOff.toNat = s.ip.optOff.toNat + s.ip.optLen.toNat
  /-- The dotted strings of a valid header have 7 to 15 characters (R31). -/
  ipStrings : s.status.ipValid = true →
    (7 ≤ s.ip.srcStrLen.toNat ∧ s.ip.srcStrLen.toNat ≤ 15) ∧
      (7 ≤ s.ip.dstStrLen.toNat ∧ s.ip.dstStrLen.toNat ≤ 15)

end Sys2Proof.Machine
end

