-- ==== Sys2Proof/Certificates/Slice0/Obligations.lean ====
section
/-! DEFINITION. The statements for the provers. Each says which rules of spec/ it formalises. -/

open Sys2Proof Sys2Proof.Machine

/-! ### Encoding (30_encoding.md) -/

/-- R80, R81, R82: decoding the word of a well-formed command gives the command back. -/
def Obligations.DecodeOfEncode : Prop :=
  ∀ i : Instr, i.wellFormed = true → decode (encode i) = some i

/-- R82: the opcode values, and the match of each row: OPC = value and RSV = 0x00, ARG free, the operand being ARG as a
number. -/
def Obligations.OpcodeMapMatch : Prop :=
  (∀ b : Nat,
    (Instr.ethDecode b).opcode = 0x01#8 ∧ (Instr.ipv4Decode b).opcode = 0x02#8 ∧
    (Instr.frameDecode b).opcode = 0x03#8 ∧ (Instr.rdU16Be b).opcode = 0x10#8 ∧
    (Instr.rdU32Be b).opcode = 0x11#8 ∧ (Instr.macFmt b).opcode = 0x20#8 ∧
    (Instr.ipv4AddrFmt b).opcode = 0x21#8) ∧
  ∀ (c : Word) (i : Instr),
    decode c = some i ↔ (c &&& 0x0000FFFF#32 = i.opcode.setWidth 32 ∧ i.base = c.toNat / 2 ^ 16)

/-- R83: a word decodes to no command exactly when its OPC is in the reserved list or its RSV is not zero. -/
def Obligations.UndecodableWords : Prop :=
  ∀ c : Word, decode c = none ↔ (reservedOpc (c.toNat % 256) ∨ c.toNat / 256 % 256 ≠ 0)

/-- R88: the example assembly lines, the words they assemble to and the commands those words decode to; the last two
decode to none and complete with COMMAND_ERROR when issued. -/
def Obligations.EncodingExamples : Prop :=
  assembleLine (.command (.ethDecode 0)) = some 0x00000001#32 ∧ assembleLine (.command (.ipv4Decode 14)) = some 0x000E0002#32 ∧
  assembleLine (.command (.frameDecode 0)) = some 0x00000003#32 ∧ assembleLine (.command (.rdU16Be 12)) = some 0x000C0010#32 ∧
  assembleLine (.command (.rdU32Be 26)) = some 0x001A0011#32 ∧ assembleLine (.command (.macFmt 6)) = some 0x00060020#32 ∧
  assembleLine (.command (.ipv4AddrFmt 30)) = some 0x001E0021#32 ∧ assembleLine (.command (.frameDecode 65535)) = some 0xFFFF0003#32 ∧
  decode 0x00000001#32 = some (.ethDecode 0) ∧ decode 0x000E0002#32 = some (.ipv4Decode 14) ∧
  decode 0x00000003#32 = some (.frameDecode 0) ∧ decode 0x000C0010#32 = some (.rdU16Be 12) ∧
  decode 0x001A0011#32 = some (.rdU32Be 26) ∧ decode 0x00060020#32 = some (.macFmt 6) ∧
  decode 0x001E0021#32 = some (.ipv4AddrFmt 30) ∧ decode 0xFFFF0003#32 = some (.frameDecode 65535) ∧
  assembleLine (.word 0x00000000) = some 0x00000000#32 ∧ decode 0x00000000#32 = none ∧
  assembleLine (.word 0x00000101) = some 0x00000101#32 ∧ decode 0x00000101#32 = none ∧
  ∀ (s : State) (c : Word) (rest : List HostAction), c = 0x00000000#32 ∨ c = 0x00000101#32 →
    s.pending = cmdWrite c :: rest → ∃ t, step s = .next t ∧ t.status.code = .commandError

/-- R86: `MNEMONIC base` assembles to `(base << 16) | OPC` for a base from 0 to 65535 and is an error above; `.word v`
assembles the 32-bit value unchanged. -/
def Obligations.AssemblerWords : Prop :=
  (∀ i : Instr, i.base ≤ 65535 →
    assembleLine (.command i) = some ((BitVec.ofNat 32 i.base <<< 16) ||| i.opcode.setWidth 32)) ∧
  (∀ i : Instr, 65535 < i.base → assembleLine (.command i) = none) ∧
  (∀ v : Word, assembleLine (.word v.toNat) = some v)

/-- R87: each pseudo-instruction assembles as its one command when its condition holds and is an assembly error
otherwise. -/
def Obligations.PseudoInstructionExpansions : Prop :=
  (assembleLine .decode = some (encode (.frameDecode 0))) ∧
  (∀ b : Nat, b + 12 ≤ 65535 → assembleLine (.rdEthertype b) = some (encode (.rdU16Be (b + 12)))) ∧
  (∀ b : Nat, 65535 < b + 12 → assembleLine (.rdEthertype b) = none) ∧
  (∀ b : Nat, b ≤ 65535 → assembleLine (.macFmtDst b) = some (encode (.macFmt b))) ∧
  (∀ b : Nat, b + 6 ≤ 65535 → assembleLine (.macFmtSrc b) = some (encode (.macFmt (b + 6)))) ∧
  (∀ b : Nat, 65535 < b + 6 → assembleLine (.macFmtSrc b) = none) ∧
  (∀ b : Nat, b + 14 ≤ 65535 → assembleLine (.ipv4AfterEth b) = some (encode (.ipv4Decode (b + 14)))) ∧
  (∀ b : Nat, 65535 < b + 14 → assembleLine (.ipv4AfterEth b) = none) ∧
  (∀ (m : List Char) (mk : Nat → Instr), (m, mk) ∈ commandNames → parseNoOperand m = some (.command (mk 0)))

/-! ### Issuing a command (R84, R85) -/

/-- R85: when the host's next action writes a word c to CMD that decodes to a command i, the step is `exec` of i; a
fault it stops on is recorded, with the valid bits as R85's clearing left them and CODE as it was (log 3, log 4); and
`exec` refuses no command, so these are all its outcomes. -/
def Obligations.StepRunsDecodedCommand : Prop :=
  ∀ (s : State) (c : Word) (rest : List HostAction) (i : Instr),
    s.pending = cmdWrite c :: rest → decode c = some i →
    (∀ t, exec i { s with pending := rest } = .next t → step s = .next t) ∧
    (∀ f, exec i { s with pending := rest } = .fault f →
      step s = .next { s with
        pending := rest
        faults := s.faults ++ [f]
        status := ⟨s.status.code, false, false, false, false, false, i.opcode⟩ }) ∧
    (∀ r, exec i { s with pending := rest } ≠ .refused r)

/-- R84, with R83 and R207: a reserved OPC, a nonzero RSV or LEN above BUF_CAP completes with COMMAND_ERROR: no group
valid, LAST_OPC the OPC as written, and nothing else changed whatever FBUF holds. -/
def Obligations.CommandErrorCompletes : Prop :=
  ∀ (s : State) (c : Word) (rest : List HostAction),
    s.pending = cmdWrite c :: rest →
    reservedOpc (c.toNat % 256) ∨ c.toNat / 256 % 256 ≠ 0 ∨ Config.bufCap < s.len.toNat →
    step s = .next { s with
      pending := rest
      status := ⟨.commandError, false, false, false, false, false, BitVec.ofNat 8 (c.toNat % 256)⟩ }

/-! ### The seven commands -/

/-- R101, with R100, R103 and R104: the word, the success with every register, TruncatedFrame exactly below 14 bytes,
and the fault of the lowest unwritten byte. -/
def Obligations.EthDecodeEffect : Prop :=
  ∀ (base : Nat) (s : State) (w : Nat → Byte),
    (base < 2 ^ 16 → encode (.ethDecode base) = BitVec.ofNat 32 (base * 2 ^ 16 + 0x01)) ∧
    (s.len.toNat ≤ Config.bufCap →
      (base + 14 ≤ s.len.toNat → WindowHolds s base 14 w →
        exec (.ethDecode base) s = .next { s with
          eth := ethFromRules base s.len.toNat w
          status := ⟨.ok, true, false, false, false, decide ((w 12 ++ w 13 : Half) = 0x0800#16), 0x01#8⟩ }) ∧
      (s.len.toNat < base + 14 →
        exec (.ethDecode base) s = .next { s with
          status := ⟨.truncatedFrame, false, false, false, false, false, 0x01#8⟩ }) ∧
      (∀ a, base + 14 ≤ s.len.toNat → FirstUnwritten s base 14 a →
        exec (.ethDecode base) s = .fault (.unwrittenFrameByte a)))

/-- R122, with R121 and R124 to R129: the word, the success with every register, the three checks in order, and the
fault of the lowest unwritten byte of the 20, which comes before the checks on IHL. -/
def Obligations.Ipv4DecodeEffect : Prop :=
  ∀ (base : Nat) (s : State) (w : Nat → Byte),
    (base < 2 ^ 16 → encode (.ipv4Decode base) = BitVec.ofNat 32 (base * 2 ^ 16 + 0x02)) ∧
    (s.len.toNat ≤ Config.bufCap →
      (s.len.toNat < base + 20 →
        exec (.ipv4Decode base) s = .next { s with
          status := ⟨.truncatedHeader, false, false, false, false, false, 0x02#8⟩ }) ∧
      (∀ a, base + 20 ≤ s.len.toNat → FirstUnwritten s base 20 a →
        exec (.ipv4Decode base) s = .fault (.unwrittenFrameByte a)) ∧
      (base + 20 ≤ s.len.toNat → WindowHolds s base 20 w → ihlField w < 5 →
        exec (.ipv4Decode base) s = .next { s with
          status := ⟨.malformedHeader, false, false, false, false, false, 0x02#8⟩ }) ∧
      (base + 20 ≤ s.len.toNat → WindowHolds s base 20 w → 5 ≤ ihlField w →
        s.len.toNat < base + ihlField w * 4 →
        exec (.ipv4Decode base) s = .next { s with
          status := ⟨.truncatedHeader, false, false, false, false, false, 0x02#8⟩ }) ∧
      (WindowHolds s base 20 w → 5 ≤ ihlField w → base + ihlField w * 4 ≤ s.len.toNat →
        exec (.ipv4Decode base) s = .next { s with
          ip := ipFromRules base w
          status := ⟨.ok, false, true, false, false, false, 0x02#8⟩ }))

/-- R171, with R170 and R172: the word and the eight ends of FRAME_DECODE; an IPv4 error keeps the ETH group the same
command wrote. -/
def Obligations.FrameDecodeEffect : Prop :=
  ∀ (base : Nat) (s : State) (w : Nat → Byte),
    (base < 2 ^ 16 → encode (.frameDecode base) = BitVec.ofNat 32 (base * 2 ^ 16 + 0x03)) ∧
    (s.len.toNat ≤ Config.bufCap →
      (s.len.toNat < base + 14 →
        exec (.frameDecode base) s = .next { s with
          status := ⟨.truncatedFrame, false, false, false, false, false, 0x03#8⟩ }) ∧
      (∀ a, base + 14 ≤ s.len.toNat → FirstUnwritten s base 14 a →
        exec (.frameDecode base) s = .fault (.unwrittenFrameByte a)) ∧
      (base + 14 ≤ s.len.toNat → WindowHolds s base 14 w → (w 12 ++ w 13 : Half) ≠ 0x0800#16 →
        exec (.frameDecode base) s = .next { s with
          eth := ethFromRules base s.len.toNat w
          status := ⟨.ok, true, false, false, false, false, 0x03#8⟩ }) ∧
      (base + 14 ≤ s.len.toNat → WindowHolds s base 14 w → (w 12 ++ w 13 : Half) = 0x0800#16 →
        (s.len.toNat < base + 34 →
          exec (.frameDecode base) s = .next { s with
            eth := ethFromRules base s.len.toNat w
            status := ⟨.truncatedHeader, true, false, false, false, true, 0x03#8⟩ }) ∧
        (∀ a, base + 34 ≤ s.len.toNat → FirstUnwritten s (base + 14) 20 a →
          exec (.frameDecode base) s = .fault (.unwrittenFrameByte a)) ∧
        (base + 34 ≤ s.len.toNat → WindowHolds s base 34 w → ihlField (fun k => w (14 + k)) < 5 →
          exec (.frameDecode base) s = .next { s with
            eth := ethFromRules base s.len.toNat w
            status := ⟨.malformedHeader, true, false, false, false, true, 0x03#8⟩ }) ∧
        (base + 34 ≤ s.len.toNat → WindowHolds s base 34 w → 5 ≤ ihlField (fun k => w (14 + k)) →
          s.len.toNat < base + 14 + ihlField (fun k => w (14 + k)) * 4 →
          exec (.frameDecode base) s = .next { s with
            eth := ethFromRules base s.len.toNat w
            status := ⟨.truncatedHeader, true, false, false, false, true, 0x03#8⟩ }) ∧
        (WindowHolds s base 34 w → 5 ≤ ihlField (fun k => w (14 + k)) →
          base + 14 + ihlField (fun k => w (14 + k)) * 4 ≤ s.len.toNat →
          exec (.frameDecode base) s = .next { s with
            eth := ethFromRules base s.len.toNat w
            ip := ipFromRules (base + 14) (fun k => w (14 + k))
            status := ⟨.ok, true, true, false, false, true, 0x03#8⟩ })))

/-- R151: the word, the zero-extended big-endian value, TruncatedFrame below 2 bytes, the fault. -/
def Obligations.RdU16BeEffect : Prop :=
  ∀ (base : Nat) (s : State) (w : Nat → Byte),
    (base < 2 ^ 16 → encode (.rdU16Be base) = BitVec.ofNat 32 (base * 2 ^ 16 + 0x10)) ∧
    (s.len.toNat ≤ Config.bufCap →
      (base + 2 ≤ s.len.toNat → WindowHolds s base 2 w →
        exec (.rdU16Be base) s = .next { s with
          rdValue := BitVec.ofNat 32 ((w 0).toNat * 256 + (w 1).toNat)
          status := ⟨.ok, false, false, true, false, false, 0x10#8⟩ }) ∧
      (s.len.toNat < base + 2 →
        exec (.rdU16Be base) s = .next { s with
          status := ⟨.truncatedFrame, false, false, false, false, false, 0x10#8⟩ }) ∧
      (∀ a, base + 2 ≤ s.len.toNat → FirstUnwritten s base 2 a →
        exec (.rdU16Be base) s = .fault (.unwrittenFrameByte a)))

/-- R152: the word, the big-endian value, TruncatedFrame below 4 bytes, the fault. -/
def Obligations.RdU32BeEffect : Prop :=
  ∀ (base : Nat) (s : State) (w : Nat → Byte),
    (base < 2 ^ 16 → encode (.rdU32Be base) = BitVec.ofNat 32 (base * 2 ^ 16 + 0x11)) ∧
    (s.len.toNat ≤ Config.bufCap →
      (base + 4 ≤ s.len.toNat → WindowHolds s base 4 w →
        exec (.rdU32Be base) s = .next { s with
          rdValue := BitVec.ofNat 32
            ((w 0).toNat * 2 ^ 24 + (w 1).toNat * 2 ^ 16 + (w 2).toNat * 2 ^ 8 + (w 3).toNat)
          status := ⟨.ok, false, false, true, false, false, 0x11#8⟩ }) ∧
      (s.len.toNat < base + 4 →
        exec (.rdU32Be base) s = .next { s with
          status := ⟨.truncatedFrame, false, false, false, false, false, 0x11#8⟩ }) ∧
      (∀ a, base + 4 ≤ s.len.toNat → FirstUnwritten s base 4 a →
        exec (.rdU32Be base) s = .fault (.unwrittenFrameByte a)))

/-- R153: the word, the packed 17-character MAC string, TruncatedFrame below 6 bytes, the fault. -/
def Obligations.MacFmtEffect : Prop :=
  ∀ (base : Nat) (s : State) (w : Nat → Byte),
    (base < 2 ^ 16 → encode (.macFmt base) = BitVec.ofNat 32 (base * 2 ^ 16 + 0x20)) ∧
    (s.len.toNat ≤ Config.bufCap →
      (base + 6 ≤ s.len.toNat → WindowHolds s base 6 w →
        exec (.macFmt base) s = .next { s with
          fmt := ⟨17#5, packStr20 (macString [w 0, w 1, w 2, w 3, w 4, w 5])⟩
          status := ⟨.ok, false, false, false, true, false, 0x20#8⟩ }) ∧
      (s.len.toNat < base + 6 →
        exec (.macFmt base) s = .next { s with
          status := ⟨.truncatedFrame, false, false, false, false, false, 0x20#8⟩ }) ∧
      (∀ a, base + 6 ≤ s.len.toNat → FirstUnwritten s base 6 a →
        exec (.macFmt base) s = .fault (.unwrittenFrameByte a)))

/-- R132: the word, the packed dotted-decimal string and its length, TruncatedFrame below 4 bytes, the fault. -/
def Obligations.Ipv4AddrFmtEffect : Prop :=
  ∀ (base : Nat) (s : State) (w : Nat → Byte),
    (base < 2 ^ 16 → encode (.ipv4AddrFmt base) = BitVec.ofNat 32 (base * 2 ^ 16 + 0x21)) ∧
    (s.len.toNat ≤ Config.bufCap →
      (base + 4 ≤ s.len.toNat → WindowHolds s base 4 w →
        exec (.ipv4AddrFmt base) s = .next { s with
          fmt := ⟨BitVec.ofNat 5 (dotted [w 0, w 1, w 2, w 3]).length, packStr20 (dotted [w 0, w 1, w 2, w 3])⟩
          status := ⟨.ok, false, false, false, true, false, 0x21#8⟩ }) ∧
      (s.len.toNat < base + 4 →
        exec (.ipv4AddrFmt base) s = .next { s with
          status := ⟨.truncatedFrame, false, false, false, false, false, 0x21#8⟩ }) ∧
      (∀ a, base + 4 ≤ s.len.toNat → FirstUnwritten s base 4 a →
        exec (.ipv4AddrFmt base) s = .fault (.unwrittenFrameByte a)))

/-- R102: on every window of at least 14 written bytes ETH_DECODE returns OK and PAYLOAD_LEN is W − 14; on every
shorter one it fails with TruncatedFrame. -/
def Obligations.EthDecodeTotal : Prop :=
  ∀ (base : Nat) (s : State), s.len.toNat ≤ Config.bufCap →
    (14 ≤ windowLen base s → (∀ k, k < 14 → Memory.read s.fbuf (base + k) ≠ none) →
      ∃ t, exec (.ethDecode base) s = .next t ∧ t.status.code = .ok ∧
        t.eth.payloadLen.toNat = windowLen base s - 14) ∧
    (windowLen base s < 14 → ∃ t, exec (.ethDecode base) s = .next t ∧ t.status.code = .truncatedFrame)

/-- R10: no sum stored by a successful decode wraps: the offsets and lengths are the exact numbers, and the payload
ranges end at LEN or start at the end of the header. -/
def Obligations.StoredSumsDoNotWrap : Prop :=
  ∀ (i : Instr) (s t : State), exec i s = .next t →
    (t.status.ethValid = true →
      t.eth.payloadOff.toNat = i.base + 14 ∧
      t.eth.payloadOff.toNat + t.eth.payloadLen.toNat = s.len.toNat) ∧
    (t.status.ipValid = true →
      t.ip.hlen.toNat = t.ip.ihl.toNat * 4 ∧
      t.ip.optOff.toNat = (match i with | .frameDecode base => base + 14 | _ => i.base) + 20 ∧
      t.ip.optOff.toNat + t.ip.optLen.toNat = t.ip.payloadOff.toNat ∧
      t.ip.payloadOff.toNat = (match i with | .frameDecode base => base + 14 | _ => i.base) + t.ip.hlen.toNat ∧
      t.ip.payloadOff.toNat ≤ s.len.toNat)

/-- R202, with R150 and R203 to R206: the CODE values, and which commands can end with each code. -/
def Obligations.CodesRaisedBy : Prop :=
  (Code.toBits .ok = 0x0#4 ∧ Code.toBits .truncatedFrame = 0x1#4 ∧ Code.toBits .truncatedHeader = 0x2#4 ∧
    Code.toBits .malformedHeader = 0x3#4 ∧ Code.toBits .commandError = 0x4#4 ∧ Code.toBits .idle = 0xF#4) ∧
  ∀ (i : Instr) (s t : State), exec i s = .next t →
    t.status.code ≠ .idle ∧
    (t.status.code = .truncatedFrame → ∀ b, i ≠ .ipv4Decode b) ∧
    (t.status.code = .truncatedHeader ∨ t.status.code = .malformedHeader →
      (∃ b, i = .ipv4Decode b) ∨ (∃ b, i = .frameDecode b)) ∧
    (t.status.code = .commandError ↔ Config.bufCap < s.len.toNat)

/-! ### Frames and whole-machine rules of the commands -/

/-- R85 and R61(e): no command writes LEN or FBUF: every byte reads as before; nor the fault record, nor what the host
still has to do or has read. -/
def Obligations.CommandFrame : Prop :=
  ∀ (i : Instr) (s t : State), exec i s = .next t →
    (∀ a, Memory.read t.fbuf a = Memory.read s.fbuf a) ∧ t.fbuf = s.fbuf ∧ t.len = s.len ∧
    t.faults = s.faults ∧ t.pending = s.pending ∧ t.responses = s.responses ∧ t.status.lastOpc = i.opcode

/-- R25 and R201: only its own commands make a group valid, a group's registers change only when the command leaves it
valid, and a valid group at the end means that the command reached the point that writes it. -/
def Obligations.GroupsWrittenByTheirCommands : Prop :=
  ∀ (i : Instr) (s t : State), exec i s = .next t →
    (∀ g, groupValid t.status g = true → g ∈ groupsOf i) ∧
    (t.status.ethValid = false → t.eth = s.eth) ∧
    (t.status.ipValid = false → t.ip = s.ip) ∧
    (t.status.rdValid = false → t.rdValue = s.rdValue) ∧
    (t.status.fmtValid = false → t.fmt = s.fmt) ∧
    (t.status.code = .ok →
      (∀ b, i ≠ .frameDecode b) → ∀ g, g ∈ groupsOf i → groupValid t.status g = true) ∧
    (t.status.isIpv4 = true ↔ t.status.ethValid = true ∧ t.eth.etherType = 0x0800#16)

/-- R235, with R36: after any command, a read of a result register of a group the command does not write faults,
whatever was valid before. -/
def Obligations.EarlierResultsUnreadable : Prop :=
  ∀ (i : Instr) (s t : State), exec i s = .next t →
    ∀ (off : Nat) (r : Reg) (g : Group), (off, r) ∈ regMap → r.group = some g → g ∉ groupsOf i →
      readReg t off = .error (.readOfInvalidResult off)

/-- R62, R65 and R232: a command completes exactly when every byte of its read set is written; otherwise it faults at
the lowest unwritten offset of the read set. It never refuses. The read set of
FRAME_DECODE is as log 14 reads R65. -/
def Obligations.CommandCompletesIffReadSetWritten : Prop :=
  ∀ (i : Instr) (s : State),
    ((∃ t, exec i s = .next t) ↔ CommandReady i s) ∧
    (∀ f, exec i s = .fault f →
      ∃ a, f = .unwrittenFrameByte a ∧ a ∈ readSet i s ∧ Memory.read s.fbuf a = none ∧
        ∀ b, b ∈ readSet i s → b < a → Memory.read s.fbuf b ≠ none) ∧
    (∀ r, exec i s ≠ .refused r)

/-- R63, R65 and R21: what a command does depends only on LEN and on the bytes of its read set: two states that agree
there get the same outcome, the same STATUS and the same readable results, whatever else they hold. The read set of
FRAME_DECODE is as log 14 reads R65. -/
def Obligations.CommandDependsOnReadSet : Prop :=
  ∀ (i : Instr) (s s' : State), s'.len = s.len →
    (∀ a, a ∈ readSet i s → Memory.read s'.fbuf a = Memory.read s.fbuf a) →
    (∀ t, exec i s = .next t →
      ∃ t', exec i s' = .next t' ∧ t'.status = t.status ∧ visibleResults t' = visibleResults t) ∧
    (∀ f, exec i s = .fault f → exec i s' = .fault f)

/-- R68 and R208: issuing the same command again, on the same LEN and FBUF, gives the same state again. -/
def Obligations.CommandsAreIdempotent : Prop :=
  ∀ (i : Instr) (s t : State), exec i s = .next t → exec i t = .next t

/-- R173: FRAME_DECODE against the sequence ETH_DECODE, IPV4_DECODE at base + 14. -/
def Obligations.FrameEqualsSequence : Prop :=
  ∀ (base : Nat) (s t : State), base + 14 ≤ 65535 → exec (.frameDecode base) s = .next t →
    ∃ e, exec (.ethDecode base) s = .next e ∧
      t.eth = e.eth ∧ t.status.ethValid = e.status.ethValid ∧ t.status.isIpv4 = e.status.isIpv4 ∧
      (e.status.isIpv4 = false → t.status.code = e.status.code ∧ t.status.ipValid = false) ∧
      (e.status.isIpv4 = true →
        ∃ p, exec (.ipv4Decode (base + 14)) e = .next p ∧
          t.ip = p.ip ∧ t.status.ipValid = p.status.ipValid ∧ t.status.code = p.status.code ∧
          p.status.ethValid = false)

/-- R74: be32 is two be16; RD_U32_BE at base and RD_U16_BE at base and base + 2 report consistent values when none of
the four bytes, nor LEN, differs between them; and the destination MAC registers equal RD_U16_BE at base and RD_U32_BE
at base + 2 on the same frame. -/
def Obligations.MixedWidthReadsAgree : Prop :=
  (∀ (h : List Byte) (i : Nat), (be32 h i).toNat = (be16 h i).toNat * 65536 + (be16 h (i + 2)).toNat) ∧
  (∀ (base : Nat) (s s1 s2 t u v : State),
    s1.len = s.len → s2.len = s.len →
    (∀ k, k < 4 → Memory.read s1.fbuf (base + k) = Memory.read s.fbuf (base + k)) →
    (∀ k, k < 4 → Memory.read s2.fbuf (base + k) = Memory.read s.fbuf (base + k)) →
    exec (.rdU32Be base) s = .next t → t.status.rdValid = true →
    exec (.rdU16Be base) s1 = .next u → exec (.rdU16Be (base + 2)) s2 = .next v →
    u.status.rdValid = true ∧ v.status.rdValid = true ∧
      t.rdValue.toNat = u.rdValue.toNat * 65536 + v.rdValue.toNat) ∧
  (∀ (base : Nat) (s s1 s2 e u x : State),
    s1.len = s.len → s2.len = s.len →
    (∀ k, k < 6 → Memory.read s1.fbuf (base + k) = Memory.read s.fbuf (base + k)) →
    (∀ k, k < 6 → Memory.read s2.fbuf (base + k) = Memory.read s.fbuf (base + k)) →
    exec (.ethDecode base) s = .next e → e.status.ethValid = true →
    exec (.rdU16Be base) s1 = .next u → exec (.rdU32Be (base + 2)) s2 = .next x →
    e.eth.dstHi.setWidth 32 = u.rdValue ∧ e.eth.dstLo = x.rdValue)

/-- R133: the fields a successful IPV4_DECODE reports encode back to the header's 20 bytes, and every field record with
IHL from 5 to 15 decodes from its encoding to itself. -/
def Obligations.HeaderRoundTrip : Prop :=
  (∀ (base : Nat) (s t : State) (w : Nat → Byte),
    exec (.ipv4Decode base) s = .next t → t.status.ipValid = true → WindowHolds s base 20 w →
    encodeHeader t.ip.toFields = (List.range 20).map w) ∧
  (∀ (base : Nat) (s : State) (f : Ipv4Fields), 5 ≤ f.ihl.toNat →
    s.len.toNat ≤ Config.bufCap → base + f.ihl.toNat * 4 ≤ s.len.toNat →
    WindowHolds s base 20 (byteAt (encodeHeader f)) →
    ∃ t, exec (.ipv4Decode base) s = .next t ∧ t.status.ipValid = true ∧ t.ip.toFields = f)

/-! ### Fields, byte order, strings -/

/-- R123: the two parts of the flags and fragment-offset field lose no bit, the flags are bits 15 to 13 in their
order, and the source's examples. -/
def Obligations.FlagsFieldUnpacks : Prop :=
  (∀ ff : Half,
    ff.toNat = (flagsOf ff).toNat * 8192 + (fragOffOf ff).toNat ∧
    (flagsOf ff).getLsbD 2 = ff.getLsbD 15 ∧ (flagsOf ff).getLsbD 1 = ff.getLsbD 14 ∧
    (flagsOf ff).getLsbD 0 = ff.getLsbD 13 ∧ (∀ k, k < 13 → (fragOffOf ff).getLsbD k = ff.getLsbD k)) ∧
  flagsOf 0x4000#16 = 2#3 ∧ fragOffOf 0x4000#16 = 0#13 ∧ flagsOf 0x3FFF#16 = 1#3 ∧ fragOffOf 0x3FFF#16 = 8191#13

/-- R64: be(s) is the sum of s[i] * 256^(len(s)-1-i), and the field readers give it of the bytes they take, which are
the concatenation of those bytes. -/
def Obligations.BigEndianFields : Prop :=
  (∀ s : List Byte,
    beValue s = ((List.range s.length).map fun i => (byteAt s i).toNat * 256 ^ (s.length - 1 - i)).sum) ∧
  ∀ (h : List Byte) (i : Nat),
    be16 h i = byteAt h i ++ byteAt h (i + 1) ∧
    be32 h i = byteAt h i ++ (byteAt h (i + 1) ++ (byteAt h (i + 2) ++ byteAt h (i + 3))) ∧
    (i + 2 ≤ h.length → (be16 h i).toNat = beValue (slice h i (i + 2))) ∧
    (i + 4 ≤ h.length → (be32 h i).toNat = beValue (slice h i (i + 4)))

/-- R154 and R155: a MAC string has 17 characters: the lower-case hexadecimal digits of each byte's two nibbles at
positions 3k and 3k + 1, and ':' between groups. -/
def Obligations.MacStringShape : Prop :=
  ∀ m : List Byte, m.length = 6 →
    (macString m).length = 17 ∧
    (∀ k, k < 6 →
      (macString m)[3 * k]? = some (BitVec.ofNat 8
        (if (byteAt m k).toNat / 16 < 10 then 0x30 + (byteAt m k).toNat / 16
          else 0x61 + ((byteAt m k).toNat / 16 - 10))) ∧
      (macString m)[3 * k + 1]? = some (BitVec.ofNat 8
        (if (byteAt m k).toNat % 16 < 10 then 0x30 + (byteAt m k).toNat % 16
          else 0x61 + ((byteAt m k).toNat % 16 - 10)))) ∧
    (∀ k, k < 5 → (macString m)[3 * k + 2]? = some 0x3A#8)

/-- R131: Dec(n) is the decimal numeral of n: digits only, the value n, no leading zero but for 0 itself; and a dotted
string is the four numerals joined by '.', with 7 to 15 characters. -/
def Obligations.DottedDecimal : Prop :=
  (∀ n, n < 256 →
    (∀ c, c ∈ dec n → 0x30 ≤ c.toNat ∧ c.toNat ≤ 0x39) ∧
    (dec n).foldl (fun acc c => acc * 10 + (c.toNat - 0x30)) 0 = n ∧
    ((dec n).head? = some 0x30#8 → n = 0 ∧ (dec n).length = 1) ∧ 0 < (dec n).length) ∧
  (∀ a b c d : Byte,
    dotted [a, b, c, d] =
      dec a.toNat ++ [0x2E#8] ++ dec b.toNat ++ [0x2E#8] ++ dec c.toNat ++ [0x2E#8] ++ dec d.toNat ∧
    7 ≤ (dotted [a, b, c, d]).length ∧ (dotted [a, b, c, d]).length ≤ 15)

/-- R156: Hex2 and the two renderers are injective, and the hexadecimal pairs of a MAC string stand at positions 0, 3,
6, 9, 12 and 15. -/
def Obligations.RenderersInjective : Prop :=
  (∀ b b' : Byte, hex2 b = hex2 b' → b = b') ∧
  (∀ (m : List Byte) (k : Nat), k < 6 → slice (macString m) (3 * k) (3 * k + 2) = hex2 (byteAt m k)) ∧
  (∀ m m' : List Byte, m.length = 6 → m'.length = 6 → macString m = macString m' → m = m') ∧
  (∀ o o' : List Byte, o.length = 4 → o'.length = 4 → dotted o = dotted o' → o = o')

/-- R35: character i of a string stands in the word at offset B + 4⌊i/4⌋ of its region, most significant byte first,
and every byte past the string's length reads 0x00. -/
def Obligations.StringRegionPacking : Prop :=
  ∀ (s : State) (cs : List Byte),
    (cs.length ≤ 20 → ∀ i, i < 20 →
      (s.status.fmtValid = true → s.fmt.str = packStr20 cs →
        ∃ v, readReg s (0x080 + 4 * (i / 4)) = .ok v ∧ v.extractLsb' (24 - 8 * (i % 4)) 8 = cs.getD i 0x00#8) ∧
      (s.status.ethValid = true → s.eth.dstStr = packStr20 cs →
        ∃ v, readReg s (0x0A0 + 4 * (i / 4)) = .ok v ∧ v.extractLsb' (24 - 8 * (i % 4)) 8 = cs.getD i 0x00#8) ∧
      (s.status.ethValid = true → s.eth.srcStr = packStr20 cs →
        ∃ v, readReg s (0x0C0 + 4 * (i / 4)) = .ok v ∧ v.extractLsb' (24 - 8 * (i % 4)) 8 = cs.getD i 0x00#8)) ∧
    (cs.length ≤ 16 → ∀ i, i < 16 →
      (s.status.ipValid = true → s.ip.srcStr = packStr16 cs →
        ∃ v, readReg s (0x0E0 + 4 * (i / 4)) = .ok v ∧ v.extractLsb' (24 - 8 * (i % 4)) 8 = cs.getD i 0x00#8) ∧
      (s.status.ipValid = true → s.ip.dstStr = packStr16 cs →
        ∃ v, readReg s (0x0F0 + 4 * (i / 4)) = .ok v ∧ v.extractLsb' (24 - 8 * (i % 4)) 8 = cs.getD i 0x00#8))

/-! ### The register space and the host's accesses -/

/-- R27: the fields of the STATUS word, which is readable in every state. -/
def Obligations.StatusWordFields : Prop :=
  ∀ s : State, ∃ v, readReg s 0x004 = .ok v ∧
    v.extractLsb' 0 4 =
      (match s.status.code with
        | .ok => 0x0#4
        | .truncatedFrame => 0x1#4
        | .truncatedHeader => 0x2#4
        | .malformedHeader => 0x3#4
        | .commandError => 0x4#4
        | .idle => 0xF#4) ∧
    v.getLsbD 4 = s.status.ethValid ∧ v.getLsbD 5 = s.status.ipValid ∧ v.getLsbD 6 = s.status.rdValid ∧
    v.getLsbD 7 = s.status.fmtValid ∧ v.getLsbD 8 = s.status.isIpv4 ∧ v.extractLsb' 9 7 = 0#7 ∧
    v.extractLsb' 16 8 = s.status.lastOpc ∧ v.extractLsb' 24 8 = 0#8

/-- R24, with R26, R28 and R29: what a read at every offset of the map gives, its fields at their places as numbers,
when the register's group is valid. -/
def Obligations.RegisterMapWords : Prop :=
  ∀ s : State,
    readReg s 0x000 = .ok 0#32 ∧
    readReg s 0x008 = .ok (BitVec.ofNat 32 s.len.toNat) ∧
    readReg s 0x00C = .ok (BitVec.ofNat 32 Config.bufCap) ∧
    (s.status.ethValid = true →
      readReg s 0x010 = .ok (BitVec.ofNat 32 s.eth.dstHi.toNat) ∧ readReg s 0x014 = .ok s.eth.dstLo ∧
      readReg s 0x018 = .ok (BitVec.ofNat 32 s.eth.srcHi.toNat) ∧ readReg s 0x01C = .ok s.eth.srcLo ∧
      readReg s 0x020 = .ok (BitVec.ofNat 32 s.eth.etherType.toNat) ∧
      readReg s 0x024 = .ok (BitVec.ofNat 32 (s.eth.payloadLen.toNat * 2 ^ 16 + s.eth.payloadOff.toNat)) ∧
      readReg s 0x0A0 = .ok s.eth.dstStr.w0 ∧ readReg s 0x0A4 = .ok s.eth.dstStr.w1 ∧
      readReg s 0x0A8 = .ok s.eth.dstStr.w2 ∧ readReg s 0x0AC = .ok s.eth.dstStr.w3 ∧
      readReg s 0x0B0 = .ok s.eth.dstStr.w4 ∧ readReg s 0x0C0 = .ok s.eth.srcStr.w0 ∧
      readReg s 0x0C4 = .ok s.eth.srcStr.w1 ∧ readReg s 0x0C8 = .ok s.eth.srcStr.w2 ∧
      readReg s 0x0CC = .ok s.eth.srcStr.w3 ∧ readReg s 0x0D0 = .ok s.eth.srcStr.w4) ∧
    (s.status.ipValid = true →
      readReg s 0x030 =
        .ok (BitVec.ofNat 32 (s.ip.hlen.toNat * 2 ^ 16 + s.ip.ihl.toNat * 2 ^ 8 + s.ip.version.toNat)) ∧
      readReg s 0x034 = .ok (BitVec.ofNat 32 s.ip.tos.toNat) ∧
      readReg s 0x038 = .ok (BitVec.ofNat 32 s.ip.totLen.toNat) ∧
      readReg s 0x03C = .ok (BitVec.ofNat 32 s.ip.ident.toNat) ∧
      readReg s 0x040 = .ok (BitVec.ofNat 32 s.ip.flags.toNat) ∧
      readReg s 0x044 = .ok (BitVec.ofNat 32 s.ip.fragOff.toNat) ∧
      readReg s 0x048 = .ok (BitVec.ofNat 32 s.ip.ttl.toNat) ∧
      readReg s 0x04C = .ok (BitVec.ofNat 32 s.ip.proto.toNat) ∧
      readReg s 0x050 = .ok (BitVec.ofNat 32 s.ip.csum.toNat) ∧
      readReg s 0x054 = .ok s.ip.src ∧ readReg s 0x058 = .ok s.ip.dst ∧
      readReg s 0x05C = .ok (BitVec.ofNat 32 (s.ip.optLen.toNat * 2 ^ 16 + s.ip.optOff.toNat)) ∧
      readReg s 0x060 = .ok (BitVec.ofNat 32 s.ip.payloadOff.toNat) ∧
      readReg s 0x064 = .ok (BitVec.ofNat 32 (s.ip.dstStrLen.toNat * 2 ^ 8 + s.ip.srcStrLen.toNat)) ∧
      readReg s 0x0E0 = .ok s.ip.srcStr.w0 ∧ readReg s 0x0E4 = .ok s.ip.srcStr.w1 ∧
      readReg s 0x0E8 = .ok s.ip.srcStr.w2 ∧ readReg s 0x0EC = .ok s.ip.srcStr.w3 ∧
      readReg s 0x0F0 = .ok s.ip.dstStr.w0 ∧ readReg s 0x0F4 = .ok s.ip.dstStr.w1 ∧
      readReg s 0x0F8 = .ok s.ip.dstStr.w2 ∧ readReg s 0x0FC = .ok s.ip.dstStr.w3) ∧
    (s.status.rdValid = true → readReg s 0x070 = .ok s.rdValue) ∧
    (s.status.fmtValid = true →
      readReg s 0x074 = .ok (BitVec.ofNat 32 s.fmt.len.toNat) ∧
      readReg s 0x080 = .ok s.fmt.str.w0 ∧ readReg s 0x084 = .ok s.fmt.str.w1 ∧
      readReg s 0x088 = .ok s.fmt.str.w2 ∧ readReg s 0x08C = .ok s.fmt.str.w3 ∧
      readReg s 0x090 = .ok s.fmt.str.w4)

/-- R23 and R37: a REG access that is not a word, not at a multiple of 4 or not below 0x100 is refused; a reserved
offset reads 0 and ignores writes; a write to any register but CMD and LEN is ignored. -/
def Obligations.RegisterSpaceRules : Prop :=
  ∀ (s : State) (rest : List HostAction) (size : AccessSize) (off : Nat) (v : Word),
    (size ≠ .word ∨ off % 4 ≠ 0 ∨ 0x100 ≤ off →
      (s.pending = .regRead size off :: rest → step s = .refused .hostAccessOutOfInterface) ∧
      (s.pending = .regWrite size off v :: rest → step s = .refused .hostAccessOutOfInterface)) ∧
    (off ∈ reservedOffsets →
      (s.pending = .regRead .word off :: rest →
        step s = .next { s with pending := rest, responses := s.responses ++ [.word 0#32] }) ∧
      (s.pending = .regWrite .word off v :: rest → step s = .next { s with pending := rest })) ∧
    (∀ r, (off, r) ∈ regMap → r ≠ .cmd → r ≠ .len →
      s.pending = .regWrite .word off v :: rest → step s = .next { s with pending := rest })

/-- R36: a word read of a result register of an invalid group returns nothing and enters ReadOfInvalidResult(offset)
in the fault record; of a valid group, or of a register without a group, it returns the register's word (log 3, log 13). -/
def Obligations.ResultReads : Prop :=
  ∀ (s : State) (rest : List HostAction) (off : Nat) (r : Reg),
    (off, r) ∈ regMap → s.pending = .regRead .word off :: rest →
    (∀ g, r.group = some g → groupValid s.status g = false →
      step s = .next { s with pending := rest, faults := s.faults ++ [.readOfInvalidResult off] }) ∧
    ((∀ g, r.group = some g → groupValid s.status g = true) →
      step s = .next { s with pending := rest, responses := s.responses ++ [.word (regWord s r)] })

/-- R28: a word write to LEN stores its low 16 bits, whatever they are, and a read gives them zero-extended; nothing but
that write and reset changes LEN; a command issued while LEN is above BUF_CAP is a COMMAND_ERROR. -/
def Obligations.LenRegister : Prop :=
  (∀ (s : State) (rest : List HostAction) (v : Word), s.pending = .regWrite .word 0x008 v :: rest →
    ∃ t, step s = .next t ∧ t = { s with pending := rest, len := v.extractLsb' 0 16 } ∧
      readReg t 0x008 = .ok (BitVec.ofNat 32 (v.toNat % 2 ^ 16))) ∧
  (∀ (s t : State), step s = .next t → t.len ≠ s.len →
    ∃ rest, (∃ v, s.pending = .regWrite .word 0x008 v :: rest) ∨ s.pending = .reset :: rest) ∧
  (∀ (i : Instr) (s : State), Config.bufCap < s.len.toNat →
    ∃ t, exec i s = .next t ∧ t.status.code = .commandError ∧ t.len = s.len)

/-- R61: host byte accesses to FBUF: a write is what that byte then reads and leaves every other byte alone, whatever
LEN is; a read returns the stored byte or records the fault of an unwritten one; an access at or above BUF_CAP is
refused, and so is one wider than a byte (log 10, the model's reading of R61(d)). -/
def Obligations.FbufAccess : Prop :=
  ∀ (s : State) (rest : List HostAction) (a : Nat) (v : Word) (size : AccessSize),
    (a < Config.bufCap →
      (s.pending = .fbufWrite .byte a v :: rest →
        ∃ m, step s = .next { s with pending := rest, fbuf := m } ∧
          Memory.read m a = some (v.extractLsb' 0 8) ∧ ∀ b, b ≠ a → Memory.read m b = Memory.read s.fbuf b) ∧
      (s.pending = .fbufRead .byte a :: rest →
        (∀ b, Memory.read s.fbuf a = some b →
          step s = .next { s with pending := rest, responses := s.responses ++ [.byte b] }) ∧
        (Memory.read s.fbuf a = none →
          step s = .next { s with pending := rest, faults := s.faults ++ [.unwrittenFrameByte a] }))) ∧
    (Config.bufCap ≤ a ∨ size ≠ .byte →
      (s.pending = .fbufWrite size a v :: rest → step s = .refused .hostAccessOutOfInterface) ∧
      (s.pending = .fbufRead size a :: rest → step s = .refused .hostAccessOutOfInterface))

/-- R37: a host write to STATUS, CAP or a result register changes nothing, and only a command, or reset (R230), changes
STATUS or a result register. -/
def Obligations.OnlyCommandsWriteResults : Prop :=
  (∀ (s : State) (rest : List HostAction) (off : Nat) (r : Reg) (v : Word),
    (off, r) ∈ regMap → r = .status ∨ r = .cap ∨ r.group ≠ none → s.pending = .regWrite .word off v :: rest →
    step s = .next { s with pending := rest }) ∧
  ∀ (s t : State), step s = .next t →
    (∀ c rest, s.pending ≠ cmdWrite c :: rest) → (∀ rest, s.pending ≠ .reset :: rest) →
    t.status = s.status ∧ t.eth = s.eth ∧ t.ip = s.ip ∧ t.rdValue = s.rdValue ∧ t.fmt = s.fmt

/-- R60 and R61(e): a byte of FBUF changes only by a host byte write to it, or by reset. -/
def Obligations.OnlyHostWritesFbuf : Prop :=
  ∀ (s t : State) (a : Nat), step s = .next t → Memory.read t.fbuf a ≠ Memory.read s.fbuf a →
    ∃ rest, (∃ v, s.pending = .fbufWrite .byte a v :: rest) ∨ s.pending = .reset :: rest

/-- R12 and R209, by the model's logs 3, 10 and 20: a step never stops with a fault, and it refuses exactly the accesses outside
the interface. -/
def Obligations.StepRefusesOnlyOutsideInterface : Prop :=
  ∀ s : State,
    (∀ f, step s ≠ .fault f) ∧
    (∀ r, step s = .refused r ↔
      r = .hostAccessOutOfInterface ∧ ∃ a rest, s.pending = a :: rest ∧ outsideInterface a)

/-! ### Faults, reset, runs -/

/-- R36 and R209: no step clears the fault record: it only grows, by at most one fault, at its end. -/
def Obligations.FaultRecordNeverCleared : Prop :=
  ∀ (s t : State), step s = .next t → ∃ l, t.faults = s.faults ++ l ∧ l.length ≤ 1

/-- R36 and R237: a run with a fault recorded is never final: no state it reaches has an observation. -/
def Obligations.FaultedRunHasNoObservation : Prop :=
  ∀ (k : Nat) (s t : State), s.faults ≠ [] → Sys2Proof.core.run k s = .next t → observe t = none

/-- R39: the reset state: STATUS 0x0000000F, LEN 0, CAP BUF_CAP, CMD 0; every result register unreadable, every FBUF
byte unwritten, the fault record empty, no command issued. -/
def Obligations.ResetState : Prop :=
  readReg State.reset 0x004 = .ok 0x0000000F#32 ∧ readReg State.reset 0x008 = .ok 0#32 ∧
  readReg State.reset 0x00C = .ok (BitVec.ofNat 32 Config.bufCap) ∧ readReg State.reset 0x000 = .ok 0#32 ∧
  (∀ off r, (off, r) ∈ regMap → r.group ≠ none →
    readReg State.reset off = .error (.readOfInvalidResult off)) ∧
  (∀ a, Memory.read State.reset.fbuf a = none) ∧ State.reset.faults = [] ∧
  ∀ c rest, State.reset.pending ≠ cmdWrite c :: rest

/-- R230 and R36, with log 11: reset as a host action puts every piece of state at its reset value and keeps the fault
record; the host's own list and what it read stay. -/
def Obligations.ResetAction : Prop :=
  ∀ (s : State) (rest : List HostAction), s.pending = .reset :: rest →
    ∃ t, step s = .next t ∧ t.status = Status.reset ∧ t.len = 0#16 ∧ (∀ a, Memory.read t.fbuf a = none) ∧
      (∀ off r, (off, r) ∈ regMap → r.group ≠ none → readReg t off = .error (.readOfInvalidResult off)) ∧
      t.faults = s.faults ∧ t.pending = rest ∧ t.responses = s.responses

/-- R231: a command issued while LEN = 0, as straight after reset, sees an empty window at every base: it completes
with the error of its short window, reads no byte, and nothing but STATUS changes; a word that selects no command
completes with COMMAND_ERROR. -/
def Obligations.CommandAfterReset : Prop :=
  ∀ (s : State) (c : Word) (rest : List HostAction), s.len = 0#16 → s.pending = cmdWrite c :: rest →
    (∀ i, decode c = some i →
      step s = .next { s with
        pending := rest
        status := ⟨(match i with | .ipv4Decode _ => .truncatedHeader | _ => .truncatedFrame),
          false, false, false, false, false, i.opcode⟩ }) ∧
    (decode c = none → ∃ t, step s = .next t ∧ t.status.code = .commandError ∧ t.fbuf = s.fbuf)

/-- R216: with no host action left the block is idle and its state is kept. -/
def Obligations.IdleKeepsState : Prop :=
  ∀ s : State, s.pending = [] → step s = .next s

/-- R215: a step of one block leaves every other block as it was, depends on that block alone, and steps of two blocks
give the same system in either order. By logs 9 and 21: the index is the model's own, and the blocks share one
BUF_CAP. -/
def Obligations.BlocksAreIndependent : Prop :=
  ∀ (S S1 : System) (j : Nat), System.step j S = .next S1 →
    (∀ k, k ≠ j → S1.blocks[k]? = S.blocks[k]?) ∧
    (∃ s t, S.blocks[j]? = some s ∧ step s = .next t ∧ S1.blocks[j]? = some t) ∧
    (∀ (k : Nat) (S2 : System), k ≠ j → System.step k S = .next S2 →
      ∃ T, System.step k S1 = .next T ∧ System.step j S2 = .next T)

/-! ### The invariant -/

/-- The reset state satisfies the invariant. -/
def Obligations.ResetSatisfiesInvariant : Prop := Inv State.reset

/-- Every step keeps the invariant, from every state that has it. -/
def Obligations.StepKeepsInvariant : Prop := ∀ (s t : State), Inv s → step s = .next t → Inv t
end

