-- ==== Sys2Proof/Laws/Memory.lean ====
section
/-! SUPPORT. The laws of FBUF: read after write, the canonical form, and all that MemRead can answer. -/

namespace Sys2Proof.Laws

open Sys2Proof.Machine

theorem read_write_same (m : Memory) (a : Nat) (v : Byte) : Memory.read (Memory.write m a v) a = some v := by
  induction m with
  | nil => simp [Memory.write, Memory.read]
  | cons c rest ih =>
    obtain ⟨b, u⟩ := c
    unfold Memory.write
    split
    · simp [Memory.read]
    · split
      · simp [Memory.read]
      · rename_i hne
        simp [Memory.read, hne, ih]

theorem read_write_other (m : Memory) {a a' : Nat} (v : Byte) (h : a' ≠ a) :
    Memory.read (Memory.write m a v) a' = Memory.read m a' := by
  induction m with
  | nil => simp [Memory.write, Memory.read, h]
  | cons c rest ih =>
    obtain ⟨b, u⟩ := c
    unfold Memory.write
    split
    · simp [Memory.read, h]
    · split
      · rename_i heq
        subst heq
        simp [Memory.read, h]
      · simp [Memory.read, ih]

theorem wf_cons (a : Nat) (v : Byte) (m : Memory) :
    Memory.wf ((a, v) :: m) = true ↔ (∀ c ∈ m, a < c.1) ∧ Memory.wf m = true := by
  simp [Memory.wf]

/-- Every offset a written memory lists was listed before or is the one written. -/
theorem mem_write {m : Memory} {a : Nat} {v : Byte} {c : Host.Cell} (h : c ∈ Memory.write m a v) :
    c = (a, v) ∨ c ∈ m := by
  induction m with
  | nil => simpa [Memory.write] using h
  | cons d rest ih =>
    obtain ⟨b, u⟩ := d
    unfold Memory.write at h
    split at h
    · simpa using h
    · split at h
      · rcases List.mem_cons.1 h with h | h
        · exact .inl h
        · exact .inr (List.mem_cons_of_mem _ h)
      · rcases List.mem_cons.1 h with h | h
        · exact .inr (h ▸ List.mem_cons_self)
        · exact (ih h).imp id (List.mem_cons_of_mem _)

/-- A write keeps the canonical form. -/
theorem wf_write {m : Memory} (h : Memory.wf m = true) (a : Nat) (v : Byte) : Memory.wf (Memory.write m a v) = true := by
  induction m with
  | nil => simp [Memory.write, Memory.wf]
  | cons d rest ih =>
    obtain ⟨b, u⟩ := d
    obtain ⟨hb, hr⟩ := (wf_cons b u rest).1 h
    unfold Memory.write
    split
    · rename_i hlt
      refine (wf_cons _ _ _).2 ⟨fun c hc => ?_, h⟩
      rcases List.mem_cons.1 hc with hc | hc
      · exact hc ▸ hlt
      · exact hlt.trans (hb c hc)
    · split
      · rename_i heq
        exact (wf_cons _ _ _).2 ⟨heq ▸ hb, hr⟩
      · rename_i hlt hne
        refine (wf_cons _ _ _).2 ⟨fun c hc => ?_, ih hr⟩
        rcases mem_write hc with hc | hc
        · subst hc
          simp only
          omega
        · exact hb c hc

/-- The memory after reset, which lists nothing, has the canonical form and lists no offset outside FBUF (R39). -/
theorem reset_fbuf_wf : Memory.wf State.reset.fbuf = true ∧ Memory.inRange State.reset.fbuf = true := ⟨rfl, rfl⟩

/-- A write below BUF_CAP keeps every listed offset below BUF_CAP. -/
theorem inRange_write {m : Memory} (h : Memory.inRange m = true) {a : Nat} (ha : a < Config.bufCap) (v : Byte) :
    Memory.inRange (Memory.write m a v) = true := by
  simp only [Memory.inRange, List.all_eq_true, decide_eq_true_eq] at h ⊢
  intro c hc
  rcases mem_write hc with hc | hc
  · exact hc ▸ ha
  · exact h c hc

/-- A listed offset reads as a value, so a read of none says the offset is not listed. -/
theorem read_of_not_listed {m : Memory} {a : Nat} (h : ∀ c ∈ m, c.1 ≠ a) : Memory.read m a = none := by
  induction m with
  | nil => rfl
  | cons d rest ih =>
    obtain ⟨b, u⟩ := d
    have hb : a ≠ b := fun e => h (b, u) List.mem_cons_self e.symm
    simp [Memory.read, hb, ih fun c hc => h c (List.mem_cons_of_mem _ hc)]

/-- Equal memories are equal data: two memories in canonical form that read alike are the same list. -/
theorem wf_ext {m m' : Memory} (h : Memory.wf m = true) (h' : Memory.wf m' = true)
    (hr : ∀ a, Memory.read m a = Memory.read m' a) : m = m' := by
  induction m generalizing m' with
  | nil =>
    cases m' with
    | nil => rfl
    | cons d rest => simpa [Memory.read] using hr d.1
  | cons c rest ih =>
    obtain ⟨a, v⟩ := c
    cases m' with
    | nil => simpa [Memory.read] using hr a
    | cons d rest' =>
      obtain ⟨b, u⟩ := d
      obtain ⟨ha, hw⟩ := (wf_cons a v rest).1 h
      obtain ⟨hb, hw'⟩ := (wf_cons b u rest').1 h'
      have hab : a = b := by
        rcases Nat.lt_trichotomy a b with hlt | heq | hgt
        · have h1 := hr a
          rw [read_of_not_listed (m := (b, u) :: rest') (a := a)] at h1
          · simp [Memory.read] at h1
          · intro c hc
            rcases List.mem_cons.1 hc with hc | hc
            · subst hc; simp only; omega
            · have := hb c hc; omega
        · exact heq
        · have h1 := hr b
          rw [read_of_not_listed (m := (a, v) :: rest) (a := b)] at h1
          · simp [Memory.read] at h1
          · intro c hc
            rcases List.mem_cons.1 hc with hc | hc
            · subst hc; simp only; omega
            · have := ha c hc; omega
      subst hab
      have hv : v = u := by simpa [Memory.read] using hr a
      subst hv
      congr 1
      refine ih hw hw' fun x => ?_
      by_cases hx : x = a
      · subst hx
        rw [read_of_not_listed fun c hc => (ha c hc).ne', read_of_not_listed fun c hc => (hb c hc).ne']
      · simpa [Memory.read, hx] using hr x

/-- MemRead answers the bytes exactly when all are written. -/
theorem memRead_eq_ok {m : Memory} {a n : Nat} {w : Nat → Byte} (h : ∀ k, k < n → Memory.read m (a + k) = some (w k)) :
    memRead m a n = .ok ((List.range n).map w) := by
  induction n generalizing a w with
  | zero => rfl
  | succ n ih =>
    have h0 : Memory.read m a = some (w 0) := h 0 (Nat.succ_pos n)
    have ht : memRead m (a + 1) n = .ok ((List.range n).map fun k => w (k + 1)) :=
      ih fun k hk => by rw [Nat.add_assoc, Nat.add_comm 1 k]; exact h (k + 1) (by omega)
    simp [memRead, h0, ht, List.range_succ_eq_map, Function.comp_def]

/-- MemRead faults at the lowest unwritten offset. -/
theorem memRead_eq_error {m : Memory} {a n k : Nat} (hk : k < n) (hu : Memory.read m (a + k) = none)
    (hw : ∀ j, j < k → Memory.read m (a + j) ≠ none) : memRead m a n = .error (a + k) := by
  induction n generalizing a k with
  | zero => omega
  | succ n ih =>
    cases k with
    | zero => simp only [Nat.add_zero] at hu; simp [memRead, hu]
    | succ k =>
      obtain ⟨b, hb⟩ := Option.ne_none_iff_exists'.1 (hw 0 (Nat.succ_pos k))
      have ht : memRead m (a + 1) n = .error (a + 1 + k) := by
        refine ih (by omega) (by rw [← hu]; congr 1; omega) fun j hj => ?_
        have := hw (j + 1) (by omega)
        rwa [show a + 1 + j = a + (j + 1) by omega]
      simp only [Nat.add_zero] at hb
      simp only [memRead, hb, ht]
      congr 1
      omega

/-- All that MemRead can answer: the written bytes, or the lowest unwritten offset. -/
theorem memRead_cases (m : Memory) (a n : Nat) :
    (∃ w : Nat → Byte, (∀ k, k < n → Memory.read m (a + k) = some (w k)) ∧ memRead m a n = .ok ((List.range n).map w)) ∨
    (∃ k, k < n ∧ Memory.read m (a + k) = none ∧ (∀ j, j < k → Memory.read m (a + j) ≠ none) ∧
      memRead m a n = .error (a + k)) := by
  by_cases h : ∃ k, k < n ∧ Memory.read m (a + k) = none
  · have hs := Nat.find_spec h
    have hw : ∀ j, j < Nat.find h → Memory.read m (a + j) ≠ none :=
      fun j hj he => Nat.find_min h hj ⟨hj.trans hs.1, he⟩
    exact .inr ⟨_, hs.1, hs.2, hw, memRead_eq_error hs.1 hs.2 hw⟩
  · refine .inl ⟨fun k => (Memory.read m (a + k)).getD 0#8, ?_, memRead_eq_ok ?_⟩ <;>
    · intro k hk
      cases hv : Memory.read m (a + k) with
      | none => exact absurd ⟨k, hk, hv⟩ h
      | some v => simp [hv]

/-- MemRead depends on the bytes it reads alone. -/
theorem memRead_congr {m m' : Memory} {a n : Nat} (h : ∀ k, k < n → Memory.read m' (a + k) = Memory.read m (a + k)) :
    memRead m' a n = memRead m a n := by
  induction n generalizing a with
  | zero => rfl
  | succ n ih =>
    have ht : memRead m' (a + 1) n = memRead m (a + 1) n :=
      ih fun k hk => by rw [show a + 1 + k = a + (k + 1) by omega]; exact h (k + 1) (by omega)
    have h0 : Memory.read m' a = Memory.read m a := h 0 (Nat.succ_pos n)
    simp [memRead, h0, ht]

end Sys2Proof.Laws
end

