-- ==== Sys2Proof/Laws/State.lean ====
section
/-! SUPPORT. What each update of the state does to each field: one lemma per field per update, true by rfl. -/

namespace Sys2Proof.Laws

open Sys2Proof.Machine

@[simp] theorem beginCommand_fbuf (opc : Byte) (s : State) : (beginCommand opc s).fbuf = s.fbuf := rfl
@[simp] theorem beginCommand_len (opc : Byte) (s : State) : (beginCommand opc s).len = s.len := rfl
@[simp] theorem beginCommand_code (opc : Byte) (s : State) : (beginCommand opc s).status.code = s.status.code := rfl
@[simp] theorem beginCommand_ethValid (opc : Byte) (s : State) : (beginCommand opc s).status.ethValid = false := rfl
@[simp] theorem beginCommand_ipValid (opc : Byte) (s : State) : (beginCommand opc s).status.ipValid = false := rfl
@[simp] theorem beginCommand_rdValid (opc : Byte) (s : State) : (beginCommand opc s).status.rdValid = false := rfl
@[simp] theorem beginCommand_fmtValid (opc : Byte) (s : State) : (beginCommand opc s).status.fmtValid = false := rfl
@[simp] theorem beginCommand_isIpv4 (opc : Byte) (s : State) : (beginCommand opc s).status.isIpv4 = false := rfl
@[simp] theorem beginCommand_lastOpc (opc : Byte) (s : State) : (beginCommand opc s).status.lastOpc = opc := rfl
@[simp] theorem beginCommand_eth (opc : Byte) (s : State) : (beginCommand opc s).eth = s.eth := rfl
@[simp] theorem beginCommand_ip (opc : Byte) (s : State) : (beginCommand opc s).ip = s.ip := rfl
@[simp] theorem beginCommand_rdValue (opc : Byte) (s : State) : (beginCommand opc s).rdValue = s.rdValue := rfl
@[simp] theorem beginCommand_fmt (opc : Byte) (s : State) : (beginCommand opc s).fmt = s.fmt := rfl
@[simp] theorem beginCommand_faults (opc : Byte) (s : State) : (beginCommand opc s).faults = s.faults := rfl
@[simp] theorem beginCommand_pending (opc : Byte) (s : State) : (beginCommand opc s).pending = s.pending := rfl
@[simp] theorem beginCommand_responses (opc : Byte) (s : State) : (beginCommand opc s).responses = s.responses := rfl

@[simp] theorem endCommand_fbuf (c : Code) (s : State) : (endCommand c s).fbuf = s.fbuf := rfl
@[simp] theorem endCommand_len (c : Code) (s : State) : (endCommand c s).len = s.len := rfl
@[simp] theorem endCommand_code (c : Code) (s : State) : (endCommand c s).status.code = c := rfl
@[simp] theorem endCommand_ethValid (c : Code) (s : State) : (endCommand c s).status.ethValid = s.status.ethValid := rfl
@[simp] theorem endCommand_ipValid (c : Code) (s : State) : (endCommand c s).status.ipValid = s.status.ipValid := rfl
@[simp] theorem endCommand_rdValid (c : Code) (s : State) : (endCommand c s).status.rdValid = s.status.rdValid := rfl
@[simp] theorem endCommand_fmtValid (c : Code) (s : State) : (endCommand c s).status.fmtValid = s.status.fmtValid := rfl
@[simp] theorem endCommand_isIpv4 (c : Code) (s : State) : (endCommand c s).status.isIpv4 = s.status.isIpv4 := rfl
@[simp] theorem endCommand_lastOpc (c : Code) (s : State) : (endCommand c s).status.lastOpc = s.status.lastOpc := rfl
@[simp] theorem endCommand_eth (c : Code) (s : State) : (endCommand c s).eth = s.eth := rfl
@[simp] theorem endCommand_ip (c : Code) (s : State) : (endCommand c s).ip = s.ip := rfl
@[simp] theorem endCommand_rdValue (c : Code) (s : State) : (endCommand c s).rdValue = s.rdValue := rfl
@[simp] theorem endCommand_fmt (c : Code) (s : State) : (endCommand c s).fmt = s.fmt := rfl
@[simp] theorem endCommand_faults (c : Code) (s : State) : (endCommand c s).faults = s.faults := rfl
@[simp] theorem endCommand_pending (c : Code) (s : State) : (endCommand c s).pending = s.pending := rfl
@[simp] theorem endCommand_responses (c : Code) (s : State) : (endCommand c s).responses = s.responses := rfl

@[simp] theorem takeError_fbuf (e : ErrorKind) (s : State) : (takeError e s).fbuf = s.fbuf := rfl
@[simp] theorem takeError_len (e : ErrorKind) (s : State) : (takeError e s).len = s.len := rfl
@[simp] theorem takeError_code (e : ErrorKind) (s : State) : (takeError e s).status.code = codeOf e := rfl
@[simp] theorem takeError_ethValid (e : ErrorKind) (s : State) : (takeError e s).status.ethValid = s.status.ethValid := rfl
@[simp] theorem takeError_ipValid (e : ErrorKind) (s : State) : (takeError e s).status.ipValid = s.status.ipValid := rfl
@[simp] theorem takeError_rdValid (e : ErrorKind) (s : State) : (takeError e s).status.rdValid = s.status.rdValid := rfl
@[simp] theorem takeError_fmtValid (e : ErrorKind) (s : State) : (takeError e s).status.fmtValid = s.status.fmtValid := rfl
@[simp] theorem takeError_isIpv4 (e : ErrorKind) (s : State) : (takeError e s).status.isIpv4 = s.status.isIpv4 := rfl
@[simp] theorem takeError_lastOpc (e : ErrorKind) (s : State) : (takeError e s).status.lastOpc = s.status.lastOpc := rfl
@[simp] theorem takeError_eth (e : ErrorKind) (s : State) : (takeError e s).eth = s.eth := rfl
@[simp] theorem takeError_ip (e : ErrorKind) (s : State) : (takeError e s).ip = s.ip := rfl
@[simp] theorem takeError_rdValue (e : ErrorKind) (s : State) : (takeError e s).rdValue = s.rdValue := rfl
@[simp] theorem takeError_fmt (e : ErrorKind) (s : State) : (takeError e s).fmt = s.fmt := rfl
@[simp] theorem takeError_faults (e : ErrorKind) (s : State) : (takeError e s).faults = s.faults := rfl
@[simp] theorem takeError_pending (e : ErrorKind) (s : State) : (takeError e s).pending = s.pending := rfl
@[simp] theorem takeError_responses (e : ErrorKind) (s : State) : (takeError e s).responses = s.responses := rfl

@[simp] theorem recordFault_fbuf (f : Fault) (s : State) : (recordFault f s).fbuf = s.fbuf := rfl
@[simp] theorem recordFault_len (f : Fault) (s : State) : (recordFault f s).len = s.len := rfl
@[simp] theorem recordFault_status (f : Fault) (s : State) : (recordFault f s).status = s.status := rfl
@[simp] theorem recordFault_eth (f : Fault) (s : State) : (recordFault f s).eth = s.eth := rfl
@[simp] theorem recordFault_ip (f : Fault) (s : State) : (recordFault f s).ip = s.ip := rfl
@[simp] theorem recordFault_rdValue (f : Fault) (s : State) : (recordFault f s).rdValue = s.rdValue := rfl
@[simp] theorem recordFault_fmt (f : Fault) (s : State) : (recordFault f s).fmt = s.fmt := rfl
@[simp] theorem recordFault_faults (f : Fault) (s : State) : (recordFault f s).faults = s.faults ++ [f] := rfl
@[simp] theorem recordFault_pending (f : Fault) (s : State) : (recordFault f s).pending = s.pending := rfl
@[simp] theorem recordFault_responses (f : Fault) (s : State) : (recordFault f s).responses = s.responses := rfl

@[simp] theorem afterFault_fbuf (opc : Byte) (f : Fault) (s : State) : (afterFault opc f s).fbuf = s.fbuf := rfl
@[simp] theorem afterFault_len (opc : Byte) (f : Fault) (s : State) : (afterFault opc f s).len = s.len := rfl
@[simp] theorem afterFault_code (opc : Byte) (f : Fault) (s : State) : (afterFault opc f s).status.code = s.status.code := rfl
@[simp] theorem afterFault_ethValid (opc : Byte) (f : Fault) (s : State) : (afterFault opc f s).status.ethValid = false := rfl
@[simp] theorem afterFault_ipValid (opc : Byte) (f : Fault) (s : State) : (afterFault opc f s).status.ipValid = false := rfl
@[simp] theorem afterFault_rdValid (opc : Byte) (f : Fault) (s : State) : (afterFault opc f s).status.rdValid = false := rfl
@[simp] theorem afterFault_fmtValid (opc : Byte) (f : Fault) (s : State) : (afterFault opc f s).status.fmtValid = false := rfl
@[simp] theorem afterFault_isIpv4 (opc : Byte) (f : Fault) (s : State) : (afterFault opc f s).status.isIpv4 = false := rfl
@[simp] theorem afterFault_lastOpc (opc : Byte) (f : Fault) (s : State) : (afterFault opc f s).status.lastOpc = opc := rfl
@[simp] theorem afterFault_eth (opc : Byte) (f : Fault) (s : State) : (afterFault opc f s).eth = s.eth := rfl
@[simp] theorem afterFault_ip (opc : Byte) (f : Fault) (s : State) : (afterFault opc f s).ip = s.ip := rfl
@[simp] theorem afterFault_rdValue (opc : Byte) (f : Fault) (s : State) : (afterFault opc f s).rdValue = s.rdValue := rfl
@[simp] theorem afterFault_fmt (opc : Byte) (f : Fault) (s : State) : (afterFault opc f s).fmt = s.fmt := rfl
@[simp] theorem afterFault_faults (opc : Byte) (f : Fault) (s : State) : (afterFault opc f s).faults = s.faults ++ [f] := rfl
@[simp] theorem afterFault_pending (opc : Byte) (f : Fault) (s : State) : (afterFault opc f s).pending = s.pending := rfl
@[simp] theorem afterFault_responses (opc : Byte) (f : Fault) (s : State) : (afterFault opc f s).responses = s.responses := rfl

@[simp] theorem writeEth_fbuf (g : EthGroup) (s : State) : (writeEth g s).fbuf = s.fbuf := rfl
@[simp] theorem writeEth_len (g : EthGroup) (s : State) : (writeEth g s).len = s.len := rfl
@[simp] theorem writeEth_code (g : EthGroup) (s : State) : (writeEth g s).status.code = s.status.code := rfl
@[simp] theorem writeEth_ethValid (g : EthGroup) (s : State) : (writeEth g s).status.ethValid = true := rfl
@[simp] theorem writeEth_ipValid (g : EthGroup) (s : State) : (writeEth g s).status.ipValid = s.status.ipValid := rfl
@[simp] theorem writeEth_rdValid (g : EthGroup) (s : State) : (writeEth g s).status.rdValid = s.status.rdValid := rfl
@[simp] theorem writeEth_fmtValid (g : EthGroup) (s : State) : (writeEth g s).status.fmtValid = s.status.fmtValid := rfl
@[simp] theorem writeEth_isIpv4 (g : EthGroup) (s : State) : (writeEth g s).status.isIpv4 = isIpv4Type g.etherType := rfl
@[simp] theorem writeEth_lastOpc (g : EthGroup) (s : State) : (writeEth g s).status.lastOpc = s.status.lastOpc := rfl
@[simp] theorem writeEth_eth (g : EthGroup) (s : State) : (writeEth g s).eth = g := rfl
@[simp] theorem writeEth_ip (g : EthGroup) (s : State) : (writeEth g s).ip = s.ip := rfl
@[simp] theorem writeEth_rdValue (g : EthGroup) (s : State) : (writeEth g s).rdValue = s.rdValue := rfl
@[simp] theorem writeEth_fmt (g : EthGroup) (s : State) : (writeEth g s).fmt = s.fmt := rfl
@[simp] theorem writeEth_faults (g : EthGroup) (s : State) : (writeEth g s).faults = s.faults := rfl
@[simp] theorem writeEth_pending (g : EthGroup) (s : State) : (writeEth g s).pending = s.pending := rfl
@[simp] theorem writeEth_responses (g : EthGroup) (s : State) : (writeEth g s).responses = s.responses := rfl

@[simp] theorem writeIp_fbuf (g : IpGroup) (s : State) : (writeIp g s).fbuf = s.fbuf := rfl
@[simp] theorem writeIp_len (g : IpGroup) (s : State) : (writeIp g s).len = s.len := rfl
@[simp] theorem writeIp_code (g : IpGroup) (s : State) : (writeIp g s).status.code = s.status.code := rfl
@[simp] theorem writeIp_ethValid (g : IpGroup) (s : State) : (writeIp g s).status.ethValid = s.status.ethValid := rfl
@[simp] theorem writeIp_ipValid (g : IpGroup) (s : State) : (writeIp g s).status.ipValid = true := rfl
@[simp] theorem writeIp_rdValid (g : IpGroup) (s : State) : (writeIp g s).status.rdValid = s.status.rdValid := rfl
@[simp] theorem writeIp_fmtValid (g : IpGroup) (s : State) : (writeIp g s).status.fmtValid = s.status.fmtValid := rfl
@[simp] theorem writeIp_isIpv4 (g : IpGroup) (s : State) : (writeIp g s).status.isIpv4 = s.status.isIpv4 := rfl
@[simp] theorem writeIp_lastOpc (g : IpGroup) (s : State) : (writeIp g s).status.lastOpc = s.status.lastOpc := rfl
@[simp] theorem writeIp_eth (g : IpGroup) (s : State) : (writeIp g s).eth = s.eth := rfl
@[simp] theorem writeIp_ip (g : IpGroup) (s : State) : (writeIp g s).ip = g := rfl
@[simp] theorem writeIp_rdValue (g : IpGroup) (s : State) : (writeIp g s).rdValue = s.rdValue := rfl
@[simp] theorem writeIp_fmt (g : IpGroup) (s : State) : (writeIp g s).fmt = s.fmt := rfl
@[simp] theorem writeIp_faults (g : IpGroup) (s : State) : (writeIp g s).faults = s.faults := rfl
@[simp] theorem writeIp_pending (g : IpGroup) (s : State) : (writeIp g s).pending = s.pending := rfl
@[simp] theorem writeIp_responses (g : IpGroup) (s : State) : (writeIp g s).responses = s.responses := rfl

@[simp] theorem writeRd_fbuf (v : Word) (s : State) : (writeRd v s).fbuf = s.fbuf := rfl
@[simp] theorem writeRd_len (v : Word) (s : State) : (writeRd v s).len = s.len := rfl
@[simp] theorem writeRd_code (v : Word) (s : State) : (writeRd v s).status.code = s.status.code := rfl
@[simp] theorem writeRd_ethValid (v : Word) (s : State) : (writeRd v s).status.ethValid = s.status.ethValid := rfl
@[simp] theorem writeRd_ipValid (v : Word) (s : State) : (writeRd v s).status.ipValid = s.status.ipValid := rfl
@[simp] theorem writeRd_rdValid (v : Word) (s : State) : (writeRd v s).status.rdValid = true := rfl
@[simp] theorem writeRd_fmtValid (v : Word) (s : State) : (writeRd v s).status.fmtValid = s.status.fmtValid := rfl
@[simp] theorem writeRd_isIpv4 (v : Word) (s : State) : (writeRd v s).status.isIpv4 = s.status.isIpv4 := rfl
@[simp] theorem writeRd_lastOpc (v : Word) (s : State) : (writeRd v s).status.lastOpc = s.status.lastOpc := rfl
@[simp] theorem writeRd_eth (v : Word) (s : State) : (writeRd v s).eth = s.eth := rfl
@[simp] theorem writeRd_ip (v : Word) (s : State) : (writeRd v s).ip = s.ip := rfl
@[simp] theorem writeRd_rdValue (v : Word) (s : State) : (writeRd v s).rdValue = v := rfl
@[simp] theorem writeRd_fmt (v : Word) (s : State) : (writeRd v s).fmt = s.fmt := rfl
@[simp] theorem writeRd_faults (v : Word) (s : State) : (writeRd v s).faults = s.faults := rfl
@[simp] theorem writeRd_pending (v : Word) (s : State) : (writeRd v s).pending = s.pending := rfl
@[simp] theorem writeRd_responses (v : Word) (s : State) : (writeRd v s).responses = s.responses := rfl

@[simp] theorem writeFmt_fbuf (cs : List Byte) (s : State) : (writeFmt cs s).fbuf = s.fbuf := rfl
@[simp] theorem writeFmt_len (cs : List Byte) (s : State) : (writeFmt cs s).len = s.len := rfl
@[simp] theorem writeFmt_code (cs : List Byte) (s : State) : (writeFmt cs s).status.code = s.status.code := rfl
@[simp] theorem writeFmt_ethValid (cs : List Byte) (s : State) : (writeFmt cs s).status.ethValid = s.status.ethValid := rfl
@[simp] theorem writeFmt_ipValid (cs : List Byte) (s : State) : (writeFmt cs s).status.ipValid = s.status.ipValid := rfl
@[simp] theorem writeFmt_rdValid (cs : List Byte) (s : State) : (writeFmt cs s).status.rdValid = s.status.rdValid := rfl
@[simp] theorem writeFmt_fmtValid (cs : List Byte) (s : State) : (writeFmt cs s).status.fmtValid = true := rfl
@[simp] theorem writeFmt_isIpv4 (cs : List Byte) (s : State) : (writeFmt cs s).status.isIpv4 = s.status.isIpv4 := rfl
@[simp] theorem writeFmt_lastOpc (cs : List Byte) (s : State) : (writeFmt cs s).status.lastOpc = s.status.lastOpc := rfl
@[simp] theorem writeFmt_eth (cs : List Byte) (s : State) : (writeFmt cs s).eth = s.eth := rfl
@[simp] theorem writeFmt_ip (cs : List Byte) (s : State) : (writeFmt cs s).ip = s.ip := rfl
@[simp] theorem writeFmt_rdValue (cs : List Byte) (s : State) : (writeFmt cs s).rdValue = s.rdValue := rfl
@[simp] theorem writeFmt_fmt (cs : List Byte) (s : State) : (writeFmt cs s).fmt = ⟨BitVec.ofNat 5 cs.length, packStr20 cs⟩ := rfl
@[simp] theorem writeFmt_faults (cs : List Byte) (s : State) : (writeFmt cs s).faults = s.faults := rfl
@[simp] theorem writeFmt_pending (cs : List Byte) (s : State) : (writeFmt cs s).pending = s.pending := rfl
@[simp] theorem writeFmt_responses (cs : List Byte) (s : State) : (writeFmt cs s).responses = s.responses := rfl

@[simp] theorem respond_fbuf (r : Response) (s : State) : (respond r s).fbuf = s.fbuf := rfl
@[simp] theorem respond_len (r : Response) (s : State) : (respond r s).len = s.len := rfl
@[simp] theorem respond_status (r : Response) (s : State) : (respond r s).status = s.status := rfl
@[simp] theorem respond_eth (r : Response) (s : State) : (respond r s).eth = s.eth := rfl
@[simp] theorem respond_ip (r : Response) (s : State) : (respond r s).ip = s.ip := rfl
@[simp] theorem respond_rdValue (r : Response) (s : State) : (respond r s).rdValue = s.rdValue := rfl
@[simp] theorem respond_fmt (r : Response) (s : State) : (respond r s).fmt = s.fmt := rfl
@[simp] theorem respond_faults (r : Response) (s : State) : (respond r s).faults = s.faults := rfl
@[simp] theorem respond_pending (r : Response) (s : State) : (respond r s).pending = s.pending := rfl
@[simp] theorem respond_responses (r : Response) (s : State) : (respond r s).responses = s.responses ++ [r] := rfl

@[simp] theorem hostWriteFbuf_fbuf (a : Nat) (v : Word) (s : State) : (hostWriteFbuf a v s).fbuf = Memory.write s.fbuf a (v.setWidth 8) := rfl
@[simp] theorem hostWriteFbuf_len (a : Nat) (v : Word) (s : State) : (hostWriteFbuf a v s).len = s.len := rfl
@[simp] theorem hostWriteFbuf_status (a : Nat) (v : Word) (s : State) : (hostWriteFbuf a v s).status = s.status := rfl
@[simp] theorem hostWriteFbuf_eth (a : Nat) (v : Word) (s : State) : (hostWriteFbuf a v s).eth = s.eth := rfl
@[simp] theorem hostWriteFbuf_ip (a : Nat) (v : Word) (s : State) : (hostWriteFbuf a v s).ip = s.ip := rfl
@[simp] theorem hostWriteFbuf_rdValue (a : Nat) (v : Word) (s : State) : (hostWriteFbuf a v s).rdValue = s.rdValue := rfl
@[simp] theorem hostWriteFbuf_fmt (a : Nat) (v : Word) (s : State) : (hostWriteFbuf a v s).fmt = s.fmt := rfl
@[simp] theorem hostWriteFbuf_faults (a : Nat) (v : Word) (s : State) : (hostWriteFbuf a v s).faults = s.faults := rfl
@[simp] theorem hostWriteFbuf_pending (a : Nat) (v : Word) (s : State) : (hostWriteFbuf a v s).pending = s.pending := rfl
@[simp] theorem hostWriteFbuf_responses (a : Nat) (v : Word) (s : State) : (hostWriteFbuf a v s).responses = s.responses := rfl

@[simp] theorem withPending_fbuf (s : State) (l : List HostAction) : (s.withPending l).fbuf = s.fbuf := rfl
@[simp] theorem withPending_len (s : State) (l : List HostAction) : (s.withPending l).len = s.len := rfl
@[simp] theorem withPending_status (s : State) (l : List HostAction) : (s.withPending l).status = s.status := rfl
@[simp] theorem withPending_eth (s : State) (l : List HostAction) : (s.withPending l).eth = s.eth := rfl
@[simp] theorem withPending_ip (s : State) (l : List HostAction) : (s.withPending l).ip = s.ip := rfl
@[simp] theorem withPending_rdValue (s : State) (l : List HostAction) : (s.withPending l).rdValue = s.rdValue := rfl
@[simp] theorem withPending_fmt (s : State) (l : List HostAction) : (s.withPending l).fmt = s.fmt := rfl
@[simp] theorem withPending_faults (s : State) (l : List HostAction) : (s.withPending l).faults = s.faults := rfl
@[simp] theorem withPending_pending (s : State) (l : List HostAction) : (s.withPending l).pending = l := rfl
@[simp] theorem withPending_responses (s : State) (l : List HostAction) : (s.withPending l).responses = s.responses := rfl

@[simp] theorem resetBlock_fbuf (s : State) : (resetBlock s).fbuf = [] := rfl
@[simp] theorem resetBlock_len (s : State) : (resetBlock s).len = 0#16 := rfl
@[simp] theorem resetBlock_status (s : State) : (resetBlock s).status = Status.reset := rfl
@[simp] theorem resetBlock_eth (s : State) : (resetBlock s).eth = EthGroup.zero := rfl
@[simp] theorem resetBlock_ip (s : State) : (resetBlock s).ip = IpGroup.zero := rfl
@[simp] theorem resetBlock_rdValue (s : State) : (resetBlock s).rdValue = 0#32 := rfl
@[simp] theorem resetBlock_fmt (s : State) : (resetBlock s).fmt = ⟨0#5, .zero⟩ := rfl
@[simp] theorem resetBlock_faults (s : State) : (resetBlock s).faults = s.faults := rfl
@[simp] theorem resetBlock_pending (s : State) : (resetBlock s).pending = s.pending := rfl
@[simp] theorem resetBlock_responses (s : State) : (resetBlock s).responses = s.responses := rfl

end Sys2Proof.Laws
end

