-- ==== Sys2Proof/Laws/Commands.lean ====
section
/-! SUPPORT. What the shared operations and `exec` can answer, said once: provers cite these lemmas and leave the
definitions folded. -/

namespace Sys2Proof.Laws

open Sys2Proof Sys2Proof.Machine

/-- The operation a command runs (R85's case over OPC). -/
def opOf : Instr → Nat → Nat → State → OpResult
  | .ethDecode _ => ethDecodeOp
  | .ipv4Decode _ => ipv4DecodeOp
  | .frameDecode _ => frameDecodeOp
  | .rdU16Be _ => rdU16BeOp
  | .rdU32Be _ => rdU32BeOp
  | .macFmt _ => macFmtOp
  | .ipv4AddrFmt _ => ipv4AddrFmtOp

/-- Every command runs through `runCommand` with its own opcode, base and operation. -/
theorem exec_eq_runCommand (i : Instr) (s : State) : exec i s = runCommand i.opcode i.base (opOf i) s := by
  cases i <;> rfl

theorem windowLen_eq (base : Nat) (s : State) : windowLen base s = s.len.toNat - base := by
  unfold windowLen
  split <;> omega

@[simp] theorem windowLen_beginCommand (base : Nat) (opc : Byte) (s : State) :
    windowLen base (beginCommand opc s) = windowLen base s := rfl

/-- LEN above BUF_CAP at issue is a COMMAND_ERROR, whatever the command (R84(c)). -/
theorem runCommand_over {opc : Byte} {base : Nat} {op : Nat → Nat → State → OpResult} {s : State}
    (h : Config.bufCap < s.len.toNat) :
    runCommand opc base op s = .next (takeError .commandError (beginCommand opc s)) := by
  simp [runCommand, h]

/-- With LEN within BUF_CAP the operation runs on the window (R85). -/
theorem runCommand_run {opc : Byte} {base : Nat} {op : Nat → Nat → State → OpResult} {s : State}
    (h : s.len.toNat ≤ Config.bufCap) :
    runCommand opc base op s = endOp (op base (windowLen base s) (beginCommand opc s)) := by
  simp [runCommand, Nat.not_lt.2 h]

theorem withBytes_short {need W base : Nat} {e : ErrorKind} {s : State} {k : List Byte → OpResult} (h : W < need) :
    withBytes need e base W s k = .raised e s := by
  simp [withBytes, h]

theorem withBytes_written {need W base : Nat} {e : ErrorKind} {s : State} {k : List Byte → OpResult} {w : Nat → Byte}
    (h : need ≤ W) (hw : WindowHolds s base need w) :
    withBytes need e base W s k = k ((List.range need).map w) := by
  simp [withBytes, Nat.not_lt.2 h, memRead_eq_ok hw]

theorem withBytes_unwritten {need W base j : Nat} {e : ErrorKind} {s : State} {k : List Byte → OpResult}
    (h : need ≤ W) (hj : j < need) (hu : Memory.read s.fbuf (base + j) = none)
    (hw : ∀ l, l < j → Memory.read s.fbuf (base + l) ≠ none) :
    withBytes need e base W s k = .fault (.unwrittenFrameByte (base + j)) := by
  simp [withBytes, Nat.not_lt.2 h, memRead_eq_error hj hu hw]

/-- All that `withBytes` can answer: the short window's error, the fault at the lowest unwritten byte, or what `k`
makes of the bytes read. -/
theorem withBytes_cases (need W base : Nat) (e : ErrorKind) (s : State) (k : List Byte → OpResult) :
    (W < need ∧ withBytes need e base W s k = .raised e s) ∨
    (∃ j, need ≤ W ∧ j < need ∧ Memory.read s.fbuf (base + j) = none ∧
      (∀ l, l < j → Memory.read s.fbuf (base + l) ≠ none) ∧
      withBytes need e base W s k = .fault (.unwrittenFrameByte (base + j))) ∨
    (∃ w, need ≤ W ∧ WindowHolds s base need w ∧
      withBytes need e base W s k = k ((List.range need).map w)) := by
  by_cases h : W < need
  · exact .inl ⟨h, withBytes_short h⟩
  · have h' := Nat.not_lt.1 h
    rcases memRead_cases s.fbuf base need with ⟨w, hw, -⟩ | ⟨j, hj, hu, hw, -⟩
    · exact .inr (.inr ⟨w, h', hw, withBytes_written h' hw⟩)
    · exact .inr (.inl ⟨j, h', hj, hu, hw, withBytes_unwritten h' hj hu hw⟩)

/-- A command whose operation begins with `withBytes`, its bytes all written: `k` decides (R85). -/
theorem run_written {opc : Byte} {base need : Nat} {e : ErrorKind} {k : Nat → State → List Byte → OpResult}
    {op : Nat → Nat → State → OpResult} {s : State} {w : Nat → Byte}
    (hop : ∀ W s, op base W s = withBytes need e base W s (k W s)) (hc : s.len.toNat ≤ Config.bufCap)
    (hl : base + need ≤ s.len.toNat) (hpos : 0 < need) (hw : WindowHolds s base need w) :
    runCommand opc base op s =
      endOp (k (s.len.toNat - base) (beginCommand opc s) ((List.range need).map w)) := by
  have h1 : need ≤ windowLen base s := by rw [windowLen_eq]; omega
  have h2 : WindowHolds (beginCommand opc s) base need w := hw
  rw [runCommand_run hc, hop, withBytes_written h1 h2, windowLen_eq]

/-- The same command with a window shorter than it reads ends with its error (R203, R204). -/
theorem run_short {opc : Byte} {base need : Nat} {e : ErrorKind} {k : Nat → State → List Byte → OpResult}
    {op : Nat → Nat → State → OpResult} {s : State}
    (hop : ∀ W s, op base W s = withBytes need e base W s (k W s)) (hc : s.len.toNat ≤ Config.bufCap)
    (hl : s.len.toNat < base + need) (hpos : 0 < need) :
    runCommand opc base op s = .next (takeError e (beginCommand opc s)) := by
  have h1 : windowLen base s < need := by rw [windowLen_eq]; omega
  rw [runCommand_run hc, hop, withBytes_short h1]
  rfl

/-- The same command with an unwritten byte faults at the lowest (R62). -/
theorem run_unwritten {opc : Byte} {base need a : Nat} {e : ErrorKind} {k : Nat → State → List Byte → OpResult}
    {op : Nat → Nat → State → OpResult} {s : State}
    (hop : ∀ W s, op base W s = withBytes need e base W s (k W s)) (hc : s.len.toNat ≤ Config.bufCap)
    (hl : base + need ≤ s.len.toNat) (ha : FirstUnwritten s base need a) :
    runCommand opc base op s = .fault (.unwrittenFrameByte a) := by
  obtain ⟨h1, h2, h3, h4⟩ := ha
  obtain ⟨j, rfl⟩ := Nat.exists_eq_add_of_le h1
  have hW : need ≤ windowLen base s := by rw [windowLen_eq]; omega
  have hu : Memory.read (beginCommand opc s).fbuf (base + j) = none := h3
  have hw : ∀ l, l < j → Memory.read (beginCommand opc s).fbuf (base + l) ≠ none :=
    fun l hl => h4 _ (by omega) (by omega)
  rw [runCommand_run hc, hop, withBytes_unwritten hW (by omega) hu hw]
  rfl

/-- How an operation can end, from the state `s` it starts in (R201): each constructor is one end, with the group
it wrote and what is known of it. -/
inductive OpEnds : Instr → Nat → Nat → State → OpResult → Prop where
  | fault (i : Instr) (base W : Nat) (s : State) (a : Nat) : OpEnds i base W s (.fault (.unwrittenFrameByte a))
  | short (i : Instr) (base W : Nat) (s : State) : OpEnds i base W s (.raised (shortError i) s)
  | ethOk (b base W : Nat) (s : State) (h : List Byte) (hW : 14 ≤ W) :
      OpEnds (.ethDecode b) base W s (.ok (writeEth (ethGroupOf base W h) s))
  | ipBad (b base W : Nat) (s : State) (e : ErrorKind) (he : e = .malformedHeader ∨ e = .truncatedHeader) :
      OpEnds (.ipv4Decode b) base W s (.raised e s)
  | ipOk (b base W : Nat) (s : State) (h : List Byte) (h20 : 20 ≤ hlenOf h) (hW : hlenOf h ≤ W) :
      OpEnds (.ipv4Decode b) base W s (.ok (writeIp (ipGroupOf base h) s))
  | frameOther (b base W : Nat) (s : State) (h : List Byte) (hW : 14 ≤ W)
      (ht : isIpv4Type (ethGroupOf base W h).etherType = false) :
      OpEnds (.frameDecode b) base W s (.ok (writeEth (ethGroupOf base W h) s))
  | frameBad (b base W : Nat) (s : State) (h : List Byte) (e : ErrorKind) (hW : 14 ≤ W)
      (ht : isIpv4Type (ethGroupOf base W h).etherType = true) (he : e = .malformedHeader ∨ e = .truncatedHeader) :
      OpEnds (.frameDecode b) base W s (.raised e (writeEth (ethGroupOf base W h) s))
  | frameOk (b base W : Nat) (s : State) (h h' : List Byte) (hW : 14 ≤ W)
      (ht : isIpv4Type (ethGroupOf base W h).etherType = true) (h20 : 20 ≤ hlenOf h') (hW' : hlenOf h' ≤ W - 14) :
      OpEnds (.frameDecode b) base W s (.ok (writeIp (ipGroupOf (base + 14) h') (writeEth (ethGroupOf base W h) s)))
  | rd16 (b base W : Nat) (s : State) (v : Half) :
      OpEnds (.rdU16Be b) base W s (.ok (writeRd (v.setWidth 32) s))
  | rd32 (b base W : Nat) (s : State) (v : Word) : OpEnds (.rdU32Be b) base W s (.ok (writeRd v s))
  | macOk (b base W : Nat) (s : State) (h : List Byte) :
      OpEnds (.macFmt b) base W s (.ok (writeFmt (macString h) s))
  | addrOk (b base W : Nat) (s : State) (h : List Byte) :
      OpEnds (.ipv4AddrFmt b) base W s (.ok (writeFmt (dotted h) s))

/-- The three ends of IPV4_DECODE's operation after its first check. -/
theorem ipv4DecodeOp_cases (base W : Nat) (s : State) :
    (∃ a, ipv4DecodeOp base W s = .fault (.unwrittenFrameByte a)) ∨
    (∃ e, (e = .malformedHeader ∨ e = .truncatedHeader) ∧ ipv4DecodeOp base W s = .raised e s) ∨
    (∃ h, 20 ≤ hlenOf h ∧ hlenOf h ≤ W ∧ ipv4DecodeOp base W s = .ok (writeIp (ipGroupOf base h) s)) := by
  unfold ipv4DecodeOp
  rcases withBytes_cases 20 W base .truncatedHeader s fun h =>
      if hlenOf h < 20 then .raised .malformedHeader s
      else if W < hlenOf h then .raised .truncatedHeader s
      else .ok (writeIp (ipGroupOf base h) s) with ⟨-, h⟩ | ⟨j, -, -, -, -, h⟩ | ⟨w, -, -, h⟩
  · exact .inr (.inl ⟨_, .inr rfl, h⟩)
  · exact .inl ⟨_, h⟩
  · rw [h]
    split
    · exact .inr (.inl ⟨_, .inl rfl, rfl⟩)
    · split
      · exact .inr (.inl ⟨_, .inr rfl, rfl⟩)
      · exact .inr (.inr ⟨_, by omega, by omega, rfl⟩)

/-- Every operation ends in one of the ways `OpEnds` lists. -/
theorem opOf_ends (i : Instr) (base W : Nat) (s : State) : OpEnds i base W s (opOf i base W s) := by
  cases i with
  | ethDecode b =>
    rcases withBytes_cases 14 W base .truncatedFrame s fun h => .ok (writeEth (ethGroupOf base W h) s) with
      ⟨-, h⟩ | ⟨j, -, -, -, -, h⟩ | ⟨w, hW, -, h⟩ <;> simp only [opOf, ethDecodeOp, h]
    exacts [.short _ _ _ _, .fault _ _ _ _ _, .ethOk _ _ _ _ _ hW]
  | ipv4Decode b =>
    rcases ipv4DecodeOp_cases base W s with ⟨a, h⟩ | ⟨e, he, h⟩ | ⟨h', h20, hW, h⟩ <;> simp only [opOf, h]
    exacts [.fault _ _ _ _ _, .ipBad _ _ _ _ _ he, .ipOk _ _ _ _ _ h20 hW]
  | frameDecode b =>
    rcases withBytes_cases 14 W base .truncatedFrame s fun h => .ok (writeEth (ethGroupOf base W h) s) with
      ⟨-, h⟩ | ⟨j, -, -, -, -, h⟩ | ⟨w, hW, -, h⟩ <;> simp only [opOf, frameDecodeOp, ethDecodeOp, h]
    · exact .short _ _ _ _
    · exact .fault _ _ _ _ _
    · simp only [writeEth_eth]
      cases ht : isIpv4Type (ethGroupOf base W ((List.range 14).map w)).etherType with
      | false => exact .frameOther _ _ _ _ _ hW ht
      | true =>
        rcases ipv4DecodeOp_cases (base + 14) (W - 14) (writeEth (ethGroupOf base W ((List.range 14).map w)) s) with
          ⟨a, h⟩ | ⟨e, he, h⟩ | ⟨h', h20, hW', h⟩ <;> simp only [h]
        exacts [.fault _ _ _ _ _, .frameBad _ _ _ _ _ _ hW ht he, .frameOk _ _ _ _ _ _ hW ht h20 hW']
  | rdU16Be b =>
    rcases withBytes_cases 2 W base .truncatedFrame s fun h => .ok (writeRd ((be16 h 0).setWidth 32) s) with
      ⟨-, h⟩ | ⟨j, -, -, -, -, h⟩ | ⟨w, -, -, h⟩ <;> simp only [opOf, rdU16BeOp, h]
    exacts [.short _ _ _ _, .fault _ _ _ _ _, .rd16 _ _ _ _ _]
  | rdU32Be b =>
    rcases withBytes_cases 4 W base .truncatedFrame s fun h => .ok (writeRd (be32 h 0) s) with
      ⟨-, h⟩ | ⟨j, -, -, -, -, h⟩ | ⟨w, -, -, h⟩ <;> simp only [opOf, rdU32BeOp, h]
    exacts [.short _ _ _ _, .fault _ _ _ _ _, .rd32 _ _ _ _ _]
  | macFmt b =>
    rcases withBytes_cases 6 W base .truncatedFrame s fun h => .ok (writeFmt (macString h) s) with
      ⟨-, h⟩ | ⟨j, -, -, -, -, h⟩ | ⟨w, -, -, h⟩ <;> simp only [opOf, macFmtOp, h]
    exacts [.short _ _ _ _, .fault _ _ _ _ _, .macOk _ _ _ _ _]
  | ipv4AddrFmt b =>
    rcases withBytes_cases 4 W base .truncatedFrame s fun h => .ok (writeFmt (dotted h) s) with
      ⟨-, h⟩ | ⟨j, -, -, -, -, h⟩ | ⟨w, -, -, h⟩ <;> simp only [opOf, ipv4AddrFmtOp, h]
    exacts [.short _ _ _ _, .fault _ _ _ _ _, .addrOk _ _ _ _ _]

/-- The next states a command can end in (R12, R201, R202), from the state `s` it is issued in: COMMAND_ERROR, the
error of a short window, an IPv4 error, or OK, each with what was written and what is known of it. -/
inductive ExecEnds : Instr → State → State → Prop where
  | lenOver (i : Instr) (s : State) (hc : Config.bufCap < s.len.toNat) :
      ExecEnds i s (takeError .commandError (beginCommand i.opcode s))
  | short (i : Instr) (s : State) (hc : s.len.toNat ≤ Config.bufCap) :
      ExecEnds i s (takeError (shortError i) (beginCommand i.opcode s))
  | ethOk (base : Nat) (s : State) (h : List Byte) (hc : s.len.toNat ≤ Config.bufCap)
      (hW : base + 14 ≤ s.len.toNat) :
      ExecEnds (.ethDecode base) s
        (endCommand .ok (writeEth (ethGroupOf base (s.len.toNat - base) h) (beginCommand 0x01#8 s)))
  | ipBad (base : Nat) (s : State) (e : ErrorKind) (hc : s.len.toNat ≤ Config.bufCap)
      (he : e = .malformedHeader ∨ e = .truncatedHeader) :
      ExecEnds (.ipv4Decode base) s (takeError e (beginCommand 0x02#8 s))
  | ipOk (base : Nat) (s : State) (h : List Byte) (hc : s.len.toNat ≤ Config.bufCap) (h20 : 20 ≤ hlenOf h)
      (hW : base + hlenOf h ≤ s.len.toNat) :
      ExecEnds (.ipv4Decode base) s (endCommand .ok (writeIp (ipGroupOf base h) (beginCommand 0x02#8 s)))
  | frameOther (base : Nat) (s : State) (h : List Byte) (hc : s.len.toNat ≤ Config.bufCap)
      (hW : base + 14 ≤ s.len.toNat)
      (ht : isIpv4Type (ethGroupOf base (s.len.toNat - base) h).etherType = false) :
      ExecEnds (.frameDecode base) s
        (endCommand .ok (writeEth (ethGroupOf base (s.len.toNat - base) h) (beginCommand 0x03#8 s)))
  | frameBad (base : Nat) (s : State) (h : List Byte) (e : ErrorKind) (hc : s.len.toNat ≤ Config.bufCap)
      (hW : base + 14 ≤ s.len.toNat)
      (ht : isIpv4Type (ethGroupOf base (s.len.toNat - base) h).etherType = true)
      (he : e = .malformedHeader ∨ e = .truncatedHeader) :
      ExecEnds (.frameDecode base) s
        (takeError e (writeEth (ethGroupOf base (s.len.toNat - base) h) (beginCommand 0x03#8 s)))
  | frameOk (base : Nat) (s : State) (h h' : List Byte) (hc : s.len.toNat ≤ Config.bufCap)
      (ht : isIpv4Type (ethGroupOf base (s.len.toNat - base) h).etherType = true) (h20 : 20 ≤ hlenOf h')
      (hW : base + 14 + hlenOf h' ≤ s.len.toNat) :
      ExecEnds (.frameDecode base) s
        (endCommand .ok (writeIp (ipGroupOf (base + 14) h')
          (writeEth (ethGroupOf base (s.len.toNat - base) h) (beginCommand 0x03#8 s))))
  | rd16 (base : Nat) (s : State) (v : Half) (hc : s.len.toNat ≤ Config.bufCap) :
      ExecEnds (.rdU16Be base) s (endCommand .ok (writeRd (v.setWidth 32) (beginCommand 0x10#8 s)))
  | rd32 (base : Nat) (s : State) (v : Word) (hc : s.len.toNat ≤ Config.bufCap) :
      ExecEnds (.rdU32Be base) s (endCommand .ok (writeRd v (beginCommand 0x11#8 s)))
  | macOk (base : Nat) (s : State) (h : List Byte) (hc : s.len.toNat ≤ Config.bufCap) :
      ExecEnds (.macFmt base) s (endCommand .ok (writeFmt (macString h) (beginCommand 0x20#8 s)))
  | addrOk (base : Nat) (s : State) (h : List Byte) (hc : s.len.toNat ≤ Config.bufCap) :
      ExecEnds (.ipv4AddrFmt base) s (endCommand .ok (writeFmt (dotted h) (beginCommand 0x21#8 s)))

/-- `exec` inverted: every next state is one of the ends. -/
theorem exec_next_ends {i : Instr} {s t : State} (h : exec i s = .next t) : ExecEnds i s t := by
  rw [exec_eq_runCommand] at h
  by_cases hc : Config.bufCap < s.len.toNat
  · rw [runCommand_over hc] at h
    exact Host.Outcome.next.inj h ▸ .lenOver i s hc
  · have hc' := Nat.not_lt.1 hc
    rw [runCommand_run hc', windowLen_eq] at h
    have hr := opOf_ends i i.base (s.len.toNat - i.base) (beginCommand i.opcode s)
    generalize opOf i i.base (s.len.toNat - i.base) (beginCommand i.opcode s) = r at hr h
    generalize hb : beginCommand i.opcode s = s1 at hr
    cases hr with
    | fault => simp [endOp] at h
    | short => exact Host.Outcome.next.inj h ▸ hb ▸ .short i s hc'
    | ethOk b _ _ _ l hW =>
      refine Host.Outcome.next.inj h ▸ hb ▸ .ethOk b s l hc' ?_
      simp only [Instr.base] at hW
      omega
    | ipBad b _ _ _ e he => exact Host.Outcome.next.inj h ▸ hb ▸ .ipBad b s e hc' he
    | ipOk b _ _ _ l h20 hW =>
      refine Host.Outcome.next.inj h ▸ hb ▸ .ipOk b s l hc' h20 ?_
      simp only [Instr.base] at hW
      omega
    | frameOther b _ _ _ l hW ht =>
      refine Host.Outcome.next.inj h ▸ hb ▸ .frameOther b s l hc' ?_ ht
      simp only [Instr.base] at hW
      omega
    | frameBad b _ _ _ l e hW ht he =>
      refine Host.Outcome.next.inj h ▸ hb ▸ .frameBad b s l e hc' ?_ ht he
      simp only [Instr.base] at hW
      omega
    | frameOk b _ _ _ l l' hW ht h20 hW' =>
      refine Host.Outcome.next.inj h ▸ hb ▸ .frameOk b s l l' hc' ht h20 ?_
      simp only [Instr.base] at hW hW'
      omega
    | rd16 b _ _ _ v => exact Host.Outcome.next.inj h ▸ hb ▸ .rd16 b s v hc'
    | rd32 b _ _ _ v => exact Host.Outcome.next.inj h ▸ hb ▸ .rd32 b s v hc'
    | macOk b _ _ _ l => exact Host.Outcome.next.inj h ▸ hb ▸ .macOk b s l hc'
    | addrOk b _ _ _ l => exact Host.Outcome.next.inj h ▸ hb ▸ .addrOk b s l hc'

end Sys2Proof.Laws
end

