-- ==== Sys2Proof/Laws/Words.lean ====
section
/-! SUPPORT. Words as numbers: concatenation, the fields of a command word, the encoder, the field readers. With
these, facts about words are facts about numbers that omega settles. -/

namespace Sys2Proof.Laws

open Sys2Proof Sys2Proof.Machine

/-- Concatenation is place value. -/
theorem toNat_append_eq {m n : Nat} (x : BitVec m) (y : BitVec n) : (x ++ y).toNat = x.toNat * 2 ^ n + y.toNat := by
  rw [BitVec.toNat_append, Nat.shiftLeft_eq, Nat.mul_comm, ← Nat.two_pow_add_eq_or_of_lt y.isLt]

theorem cmdOpc_toNat (c : Word) : (cmdOpc c).toNat = c.toNat % 256 := by
  simp [cmdOpc, BitVec.extractLsb'_toNat]

theorem cmdRsv_toNat (c : Word) : (cmdRsv c).toNat = c.toNat / 256 % 256 := by
  simp [cmdRsv, BitVec.extractLsb'_toNat, Nat.shiftRight_eq_div_pow]

theorem cmdArg_toNat (c : Word) : (cmdArg c).toNat = c.toNat / 2 ^ 16 := by
  have := c.isLt
  simp only [cmdArg, BitVec.extractLsb'_toNat, Nat.shiftRight_eq_div_pow]
  omega

theorem wellFormed_iff (i : Instr) : i.wellFormed = true ↔ i.base < 2 ^ 16 := by
  simp [Instr.wellFormed]

theorem not_wellFormed_iff (i : Instr) : i.wellFormed = false ↔ 2 ^ 16 ≤ i.base := by
  simp [Instr.wellFormed]

theorem opcode_lt (i : Instr) : i.opcode.toNat < 256 := i.opcode.isLt

theorem encode_toNat (i : Instr) : (encode i).toNat = i.base % 2 ^ 16 * 2 ^ 16 + i.opcode.toNat := by
  unfold encode
  rw [toNat_append_eq, toNat_append_eq]
  simp

/-- The opcode map read both ways (R82). -/
theorem decodeOpc_eq_some (opc : Byte) (b : Nat) (i : Instr) : decodeOpc opc b = some i ↔ opc = i.opcode ∧ i.base = b := by
  constructor
  · intro h
    unfold decodeOpc at h
    repeat (split at h; · (cases h; subst_vars; exact ⟨rfl, rfl⟩))
    cases h
  · rintro ⟨rfl, rfl⟩
    cases i <;> simp [Instr.opcode, decodeOpc, Instr.base]

theorem be16_toNat (h : List Byte) (i : Nat) : (be16 h i).toNat = (byteAt h i).toNat * 256 + (byteAt h (i + 1)).toNat :=
  toNat_append_eq _ _

theorem be32_toNat (h : List Byte) (i : Nat) : (be32 h i).toNat =
    (byteAt h i).toNat * 2 ^ 24 + (byteAt h (i + 1)).toNat * 2 ^ 16 + (byteAt h (i + 2)).toNat * 2 ^ 8 +
      (byteAt h (i + 3)).toNat := by
  unfold be32
  rw [toNat_append_eq, toNat_append_eq, toNat_append_eq]
  omega

/-- Byte k of the bytes MemRead returned is the window's byte k. -/
theorem byteAt_map_range (w : Nat → Byte) {n k : Nat} (h : k < n) : byteAt ((List.range n).map w) k = w k := by
  simp [byteAt, h]

end Sys2Proof.Laws
end

