-- ==== Sys2Proof/Laws/PerInstr.lean ====
section
/-! SUPPORT. The family EncodeFields, made per instruction: the three fields of a command's word (30_encoding.md R80,
R82). -/

namespace Sys2Proof.Laws.EncodeFields

open Sys2Proof

/-- The word of `i`: OPC is its opcode and selects it, RSV is zero, ARG is its base (R80 to R82). -/
def Statement (i : Instr) : Prop :=
  cmdOpc (encode i) = i.opcode ∧ cmdRsv (encode i) = 0x00#8 ∧ (cmdArg (encode i)).toNat = i.base % 2 ^ 16 ∧
    decodeOpc i.opcode i.base = some i

/-- The fields of an encoded word, from its value. -/
theorem fields (i : Instr) (h : decodeOpc i.opcode i.base = some i) : Statement i := by
  have hn := encode_toNat i
  have ho := opcode_lt i
  refine ⟨?_, ?_, ?_, h⟩
  · apply BitVec.eq_of_toNat_eq
    rw [cmdOpc_toNat, hn]
    omega
  · apply BitVec.eq_of_toNat_eq
    rw [cmdRsv_toNat, hn, BitVec.toNat_ofNat]
    omega
  · rw [cmdArg_toNat, hn]
    omega

theorem ethDecode (base : Nat) : Statement (.ethDecode base) := fields _ rfl
theorem ipv4Decode (base : Nat) : Statement (.ipv4Decode base) := fields _ rfl
theorem frameDecode (base : Nat) : Statement (.frameDecode base) := fields _ rfl
theorem rdU16Be (base : Nat) : Statement (.rdU16Be base) := fields _ rfl
theorem rdU32Be (base : Nat) : Statement (.rdU32Be base) := fields _ rfl
theorem macFmt (base : Nat) : Statement (.macFmt base) := fields _ rfl
theorem ipv4AddrFmt (base : Nat) : Statement (.ipv4AddrFmt base) := fields _ rfl

end Sys2Proof.Laws.EncodeFields
end

