-- ==== Sys2Proof/Laws/Shapes.lean ====
section
/-! SUPPORT. A command as a function of its inputs: what it ends with and which groups it writes is fixed by LEN and
the bytes of its read set, whatever else the state holds (20_memory.md R63, R65, R68). -/

namespace Sys2Proof.Laws

open Sys2Proof Sys2Proof.Machine

/-- The result groups a command writes, with their contents. -/
inductive Writes where
  | none
  | eth (g : EthGroup)
  | ip (g : IpGroup)
  | ethIp (g : EthGroup) (g' : IpGroup)
  | rd (v : Word)
  | fmt (cs : List Byte)

/-- The writes, done to a state. -/
def Writes.apply : Writes → State → State
  | .none, s => s
  | .eth g, s => writeEth g s
  | .ip g, s => writeIp g s
  | .ethIp g g', s => writeIp g' (writeEth g s)
  | .rd v, s => writeRd v s
  | .fmt cs, s => writeFmt cs s

/-- How a command ends, apart from the state it is issued in. -/
inductive Shape where
  | ends (c : Code) (w : Writes)
  | fault (f : Fault)

/-- The outcome a shape gives in a state. -/
def Shape.outcome (opc : Byte) (s : State) : Shape → Host.Outcome State Fault Refusal
  | .ends c w => .next (endCommand c (w.apply (beginCommand opc s)))
  | .fault f => .fault f

@[simp] theorem apply_fbuf (w : Writes) (s : State) : (w.apply s).fbuf = s.fbuf := by cases w <;> rfl
@[simp] theorem apply_len (w : Writes) (s : State) : (w.apply s).len = s.len := by cases w <;> rfl
@[simp] theorem apply_lastOpc (w : Writes) (s : State) : (w.apply s).status.lastOpc = s.status.lastOpc := by
  cases w <;> rfl
@[simp] theorem apply_faults (w : Writes) (s : State) : (w.apply s).faults = s.faults := by cases w <;> rfl
@[simp] theorem apply_pending (w : Writes) (s : State) : (w.apply s).pending = s.pending := by cases w <;> rfl
@[simp] theorem apply_responses (w : Writes) (s : State) : (w.apply s).responses = s.responses := by cases w <;> rfl

/-- The writes done to two issued commands give the same STATUS but for CODE. -/
theorem apply_status (w : Writes) (c : Code) (opc : Byte) (s s' : State) :
    (endCommand c (w.apply (beginCommand opc s'))).status = (endCommand c (w.apply (beginCommand opc s))).status := by
  cases w <;> rfl

/-- The bytes a command's operation reads before it decides. -/
theorem readSet_first {i : Instr} {s : State} (hc : s.len.toNat ≤ Config.bufCap) (hW : firstRead i ≤ windowLen i.base s)
    {k : Nat} (hk : k < firstRead i) : i.base + k ∈ readSet i s := by
  rw [readSet, if_neg (Nat.not_lt.2 hc), if_neg (Nat.not_lt.2 hW)]
  exact List.mem_append_left _ (List.mem_range'_1.2 ⟨Nat.le_add_right _ _, by omega⟩)

/-- A command that reads one region: its shape, and that any state that agrees on LEN and the region shares it. -/
theorem simple_shape {i : Instr} {e : ErrorKind} {k : Nat → State → List Byte → OpResult}
    (hop : ∀ W s, opOf i i.base W s = withBytes (firstRead i) e i.base W s (k W s))
    (hk : ∀ W h, ∃ sh : Shape, ∀ s, endOp (k W (beginCommand i.opcode s) h) = sh.outcome i.opcode s) (s : State) :
    ∃ sh : Shape, exec i s = sh.outcome i.opcode s ∧ ∀ s', s'.len = s.len →
      (∀ a, a ∈ readSet i s → Memory.read s'.fbuf a = Memory.read s.fbuf a) → exec i s' = sh.outcome i.opcode s' := by
  by_cases hc : Config.bufCap < s.len.toNat
  · refine ⟨.ends .commandError .none, ?_, fun s' hl _ => ?_⟩
    · rw [exec_eq_runCommand, runCommand_over hc]; rfl
    · rw [exec_eq_runCommand, runCommand_over (hl ▸ hc)]; rfl
  · have hc' := Nat.not_lt.1 hc
    have hrun : ∀ t : State, t.len = s.len → exec i t =
        endOp (withBytes (firstRead i) e i.base (windowLen i.base s) (beginCommand i.opcode t)
          (k (windowLen i.base s) (beginCommand i.opcode t))) := by
      intro t hl
      rw [exec_eq_runCommand, runCommand_run (hl ▸ hc'), hop]
      simp only [windowLen, hl]
    by_cases hW : windowLen i.base s < firstRead i
    · refine ⟨.ends (codeOf e) .none, ?_, fun s' hl _ => ?_⟩
      · rw [hrun s rfl, withBytes_short hW]; rfl
      · rw [hrun s' hl, withBytes_short hW]; rfl
    · have hW' := Nat.not_lt.1 hW
      have hm : ∀ s' : State, (∀ a, a ∈ readSet i s → Memory.read s'.fbuf a = Memory.read s.fbuf a) →
          memRead s'.fbuf i.base (firstRead i) = memRead s.fbuf i.base (firstRead i) :=
        fun s' hr => memRead_congr fun j hj => hr _ (readSet_first hc' hW' hj)
      cases hr : memRead s.fbuf i.base (firstRead i) with
      | error a =>
        refine ⟨.fault (.unwrittenFrameByte a), ?_, fun s' hl hs => ?_⟩
        · rw [hrun s rfl]; simp [withBytes, hW, hr, endOp, Shape.outcome]
        · rw [hrun s' hl]; simp [withBytes, hW, hm s' hs, hr, endOp, Shape.outcome]
      | ok h =>
        obtain ⟨sh, hsh⟩ := hk (windowLen i.base s) h
        refine ⟨sh, ?_, fun s' hl hs => ?_⟩
        · rw [hrun s rfl]; simp [withBytes, hW, hr, hsh]
        · rw [hrun s' hl]; simp [withBytes, hW, hm s' hs, hr, hsh]

/-- The IPv4 step as a shape over the ETH group already written, or over nothing. -/
def ipShape (base W : Nat) (g : Option EthGroup) (h : List Byte) : Shape :=
  if hlenOf h < 20 then .ends .malformedHeader (match g with | some e => .eth e | none => .none)
  else if W < hlenOf h then .ends .truncatedHeader (match g with | some e => .eth e | none => .none)
  else .ends .ok (match g with | some e => .ethIp e (ipGroupOf base h) | none => .ip (ipGroupOf base h))

/-- The IPv4 step of FRAME_DECODE, its ETH group written. -/
theorem frame_ip_shape (base W : Nat) (g : EthGroup) (s : State) :
    ∃ sh : Shape, endOp (ipv4DecodeOp base W (writeEth g (beginCommand 0x03#8 s))) = sh.outcome 0x03#8 s ∧
      ∀ s' : State, (20 ≤ W → ∀ k, k < 20 → Memory.read s'.fbuf (base + k) = Memory.read s.fbuf (base + k)) →
        endOp (ipv4DecodeOp base W (writeEth g (beginCommand 0x03#8 s'))) = sh.outcome 0x03#8 s' := by
  by_cases hW : W < 20
  · refine ⟨.ends .truncatedHeader (.eth g), ?_, fun s' _ => ?_⟩ <;> (rw [ipv4DecodeOp, withBytes_short hW]; rfl)
  · have hm : ∀ s' : State, (20 ≤ W → ∀ k, k < 20 → Memory.read s'.fbuf (base + k) = Memory.read s.fbuf (base + k)) →
        memRead s'.fbuf base 20 = memRead s.fbuf base 20 := fun s' hr => memRead_congr (hr (Nat.not_lt.1 hW))
    cases hr : memRead s.fbuf base 20 with
    | error a =>
      refine ⟨.fault (.unwrittenFrameByte a), ?_, fun s' hs => ?_⟩
      · simp [ipv4DecodeOp, withBytes, hW, hr, endOp, Shape.outcome]
      · simp [ipv4DecodeOp, withBytes, hW, hm s' hs, hr, endOp, Shape.outcome]
    | ok h =>
      have hsh : ∀ t : State, endOp (if hlenOf h < 20 then .raised .malformedHeader t
          else if W < hlenOf h then .raised .truncatedHeader t
          else .ok (writeIp (ipGroupOf base h) t)) =
          (if hlenOf h < 20 then .next (takeError .malformedHeader t)
            else if W < hlenOf h then .next (takeError .truncatedHeader t)
            else .next (endCommand .ok (writeIp (ipGroupOf base h) t))) := by
        intro t
        split
        · rfl
        · split <;> rfl
      have hout : ∀ t : State, (ipShape base W (some g) h).outcome 0x03#8 t =
          (if hlenOf h < 20 then .next (takeError .malformedHeader (writeEth g (beginCommand 0x03#8 t)))
            else if W < hlenOf h then .next (takeError .truncatedHeader (writeEth g (beginCommand 0x03#8 t)))
            else .next (endCommand .ok (writeIp (ipGroupOf base h) (writeEth g (beginCommand 0x03#8 t))))) := by
        intro t
        unfold ipShape
        split
        · rfl
        · split <;> rfl
      refine ⟨ipShape base W (some g) h, ?_, fun s' hs => ?_⟩
      · simp [ipv4DecodeOp, withBytes, hW, hr, hsh, hout]
      · simp [ipv4DecodeOp, withBytes, hW, hm s' hs, hr, hsh, hout]

/-- FRAME_DECODE once its 14 bytes are read. -/
theorem exec_frame_read {base : Nat} {s : State} {h : List Byte} (hc : s.len.toNat ≤ Config.bufCap)
    (hW : 14 ≤ windowLen base s) (hr : memRead s.fbuf base 14 = .ok h) :
    exec (.frameDecode base) s =
      match isIpv4Type (be16 h 12) with
      | true => endOp (ipv4DecodeOp (base + 14) (windowLen base s - 14)
          (writeEth (ethGroupOf base (windowLen base s) h) (beginCommand 0x03#8 s)))
      | false => .next (endCommand .ok (writeEth (ethGroupOf base (windowLen base s) h) (beginCommand 0x03#8 s))) := by
  have h1 : ethDecodeOp base (windowLen base s) (beginCommand 0x03#8 s) =
      .ok (writeEth (ethGroupOf base (windowLen base s) h) (beginCommand 0x03#8 s)) := by
    simp [ethDecodeOp, withBytes, Nat.not_lt.2 hW, hr]
  rw [exec, execFrameDecode, runCommand_run hc, frameDecodeOp, h1]
  simp only [writeEth_eth, show (ethGroupOf base (windowLen base s) h).etherType = be16 h 12 from rfl]
  cases isIpv4Type (be16 h 12) <;> rfl

/-- FRAME_DECODE's shape. -/
theorem frame_shape (base : Nat) (s : State) :
    ∃ sh : Shape, exec (.frameDecode base) s = sh.outcome 0x03#8 s ∧ ∀ s', s'.len = s.len →
      (∀ a, a ∈ readSet (.frameDecode base) s → Memory.read s'.fbuf a = Memory.read s.fbuf a) →
      exec (.frameDecode base) s' = sh.outcome 0x03#8 s' := by
  by_cases hc : Config.bufCap < s.len.toNat
  · refine ⟨.ends .commandError .none, ?_, fun s' hl _ => ?_⟩
    · rw [exec_eq_runCommand, runCommand_over hc]; rfl
    · rw [exec_eq_runCommand, runCommand_over (hl ▸ hc)]; rfl
  have hc' := Nat.not_lt.1 hc
  have hw : ∀ t : State, t.len = s.len → windowLen base t = windowLen base s := fun t hl => by simp only [windowLen, hl]
  have hrun : ∀ t : State, t.len = s.len →
      exec (.frameDecode base) t = endOp (frameDecodeOp base (windowLen base s) (beginCommand 0x03#8 t)) := by
    intro t hl
    rw [exec, execFrameDecode, runCommand_run (hl ▸ hc'), hw t hl]
  by_cases hW : windowLen base s < 14
  · refine ⟨.ends .truncatedFrame .none, ?_, fun s' hl _ => ?_⟩
    · rw [hrun s rfl, frameDecodeOp, ethDecodeOp, withBytes_short hW]; rfl
    · rw [hrun s' hl, frameDecodeOp, ethDecodeOp, withBytes_short hW]; rfl
  have hW' := Nat.not_lt.1 hW
  have hm : ∀ s' : State, (∀ a, a ∈ readSet (.frameDecode base) s → Memory.read s'.fbuf a = Memory.read s.fbuf a) →
      memRead s'.fbuf base 14 = memRead s.fbuf base 14 :=
    fun s' hr => memRead_congr fun j hj => hr _ (readSet_first (i := .frameDecode base) hc' hW' hj)
  cases hr : memRead s.fbuf base 14 with
  | error a =>
    refine ⟨.fault (.unwrittenFrameByte a), ?_, fun s' hl hs => ?_⟩
    · rw [hrun s rfl]; simp [frameDecodeOp, ethDecodeOp, withBytes, hW, hr, endOp, Shape.outcome]
    · rw [hrun s' hl]; simp [frameDecodeOp, ethDecodeOp, withBytes, hW, hm s' hs, hr, endOp, Shape.outcome]
  | ok h =>
    cases ht : isIpv4Type (be16 h 12) with
    | false =>
      refine ⟨.ends .ok (.eth (ethGroupOf base (windowLen base s) h)), ?_, fun s' hl hs => ?_⟩
      · rw [exec_frame_read hc' hW' hr, ht]; rfl
      · rw [exec_frame_read (hl ▸ hc') (hw s' hl ▸ hW') (hm s' hs ▸ hr), ht, hw s' hl]; rfl
    | true =>
      obtain ⟨sh, h1, h2⟩ := frame_ip_shape (base + 14) (windowLen base s - 14)
        (ethGroupOf base (windowLen base s) h) s
      refine ⟨sh, ?_, fun s' hl hs => ?_⟩
      · rw [exec_frame_read hc' hW' hr, ht]; exact h1
      · rw [exec_frame_read (hl ▸ hc') (hw s' hl ▸ hW') (hm s' hs ▸ hr), ht, hw s' hl]
        refine h2 s' fun h20 k hk => hs _ ?_
        rw [readSet, if_neg hc, if_neg (show ¬ windowLen (Instr.frameDecode base).base s < firstRead (.frameDecode base) from hW)]
        refine List.mem_append_right _ ?_
        simp only [secondRead, hr, ht, Bool.true_and]
        rw [if_pos (by simp only [decide_eq_true_eq]; omega)]
        exact List.mem_range'_1.2 ⟨by omega, by omega⟩

/-- Every command has a shape, shared by every state that agrees on LEN and on the bytes of its read set
(R63, R65, R68). -/
theorem exec_shape (i : Instr) (s : State) :
    ∃ sh : Shape, exec i s = sh.outcome i.opcode s ∧ ∀ s', s'.len = s.len →
      (∀ a, a ∈ readSet i s → Memory.read s'.fbuf a = Memory.read s.fbuf a) → exec i s' = sh.outcome i.opcode s' := by
  cases i with
  | ethDecode b =>
    exact simple_shape (e := .truncatedFrame) (k := fun W s h => .ok (writeEth (ethGroupOf b W h) s)) (fun _ _ => rfl)
      (fun W h => ⟨.ends .ok (.eth (ethGroupOf b W h)), fun _ => rfl⟩) s
  | ipv4Decode b =>
    refine simple_shape (e := .truncatedHeader) (k := fun W s h =>
      if hlenOf h < 20 then .raised .malformedHeader s
      else if W < hlenOf h then .raised .truncatedHeader s
      else .ok (writeIp (ipGroupOf b h) s)) (fun _ _ => rfl) (fun W h => ⟨ipShape b W none h, fun s => ?_⟩) s
    unfold ipShape
    split
    · rfl
    · split <;> rfl
  | frameDecode b => exact frame_shape b s
  | rdU16Be b =>
    exact simple_shape (e := .truncatedFrame) (k := fun _ s h => .ok (writeRd ((be16 h 0).setWidth 32) s))
      (fun _ _ => rfl) (fun W h => ⟨.ends .ok (.rd ((be16 h 0).setWidth 32)), fun _ => rfl⟩) s
  | rdU32Be b =>
    exact simple_shape (e := .truncatedFrame) (k := fun _ s h => .ok (writeRd (be32 h 0) s)) (fun _ _ => rfl)
      (fun W h => ⟨.ends .ok (.rd (be32 h 0)), fun _ => rfl⟩) s
  | macFmt b =>
    exact simple_shape (e := .truncatedFrame) (k := fun _ s h => .ok (writeFmt (macString h) s)) (fun _ _ => rfl)
      (fun W h => ⟨.ends .ok (.fmt (macString h)), fun _ => rfl⟩) s
  | ipv4AddrFmt b =>
    exact simple_shape (e := .truncatedFrame) (k := fun _ s h => .ok (writeFmt (dotted h) s)) (fun _ _ => rfl)
      (fun W h => ⟨.ends .ok (.fmt (dotted h)), fun _ => rfl⟩) s

end Sys2Proof.Laws
end

