-- ==== Sys2Proof/Laws/Steps.lean ====
section
/-! SUPPORT. What a step can do, said once: the register map read by offset, the ends of issuing a word, and the ends
of a host action. -/

namespace Sys2Proof.Laws

open Sys2Proof Sys2Proof.Machine

/-! ### The register map -/

theorem regMap_lookup : ∀ p ∈ regMap, regAt p.1 = some p.2 := by decide

/-- Every register of the map is at its offset (R24): no two rows share one. -/
theorem regAt_of_mem {off : Nat} {r : Reg} (h : (off, r) ∈ regMap) : regAt off = some r := regMap_lookup _ h

/-- Every register the map answers for an offset stands in it. -/
theorem mem_of_regAt {off : Nat} {r : Reg} (h : regAt off = some r) : (off, r) ∈ regMap := by
  unfold regAt at h
  generalize regMap = m at h ⊢
  induction m with
  | nil => simp at h
  | cons p l ih =>
    obtain ⟨o, q⟩ := p
    rw [List.lookup_cons] at h
    split at h
    · rename_i he
      simp only [beq_iff_eq] at he
      simp only [Option.some.injEq] at h
      exact he ▸ h ▸ List.mem_cons_self
    · exact List.mem_cons_of_mem _ (ih h)

theorem regMap_inside : ∀ p ∈ regMap, regAccessOk .word p.1 = true := by decide

theorem regAt_cmd : regAt 0x000 = some .cmd := by decide

theorem regAt_len : regAt 0x008 = some .len := by decide

theorem regAt_eq_cmd {off : Nat} (h : regAt off = some .cmd) : off = 0x000 := by
  have hm : (off, Reg.cmd) ∈ regMap := mem_of_regAt h
  have hall : ∀ p ∈ regMap, p.2 = .cmd → p.1 = 0x000 := by decide
  exact hall _ hm rfl

theorem regAt_eq_len {off : Nat} (h : regAt off = some .len) : off = 0x008 := by
  have hm : (off, Reg.len) ∈ regMap := mem_of_regAt h
  have hall : ∀ p ∈ regMap, p.2 = .len → p.1 = 0x008 := by decide
  exact hall _ hm rfl

theorem readable_ungated {st : Status} {r : Reg} (h : r.group = none) : readable st r = true := by
  simp [readable, h]

theorem readable_gated {st : Status} {r : Reg} {g : Group} (h : r.group = some g) : readable st r = groupValid st g := by
  simp [readable, h]

/-- A register that is not gated off reads as its word (R36). -/
theorem readReg_word {s : State} {off : Nat} {r : Reg} (h : regAt off = some r) (hr : readable s.status r = true) :
    readReg s off = .ok (regWord s r) := by
  simp [readReg, h, hr]

/-- A register of an invalid group faults (R36). -/
theorem readReg_invalid {s : State} {off : Nat} {r : Reg} (h : regAt off = some r) (hr : readable s.status r = false) :
    readReg s off = .error (.readOfInvalidResult off) := by
  simp [readReg, h, hr]

/-- A reserved offset reads 0 (R23(d)). -/
theorem readReg_reserved {s : State} {off : Nat} (h : regAt off = none) : readReg s off = .ok 0#32 := by
  simp [readReg, h]

theorem regAccessOk_iff (size : AccessSize) (off : Nat) :
    regAccessOk size off = true ↔ size = .word ∧ off % 4 = 0 ∧ off < 0x100 := by
  simp [regAccessOk, and_assoc]

theorem fbufAccessOk_iff (size : AccessSize) (off : Nat) :
    fbufAccessOk size off = true ↔ size = .byte ∧ off < Config.bufCap := by
  simp [fbufAccessOk]

/-! ### Issuing a word -/

/-- The ends of issuing a command word (R85): COMMAND_ERROR for a word without a command, what `exec` answers, or
the fault it stopped on, recorded. -/
theorem issueWord_next_cases {c : Word} {s t : State} (h : issueWord c s = .next t) :
    (decode c = none ∧ t = takeError .commandError (beginCommand (cmdOpc c) s)) ∨
    (∃ i, decode c = some i ∧ exec i s = .next t) ∨
    (∃ i f, decode c = some i ∧ exec i s = .fault f ∧ t = afterFault (cmdOpc c) f s) := by
  unfold issueWord at h
  cases hd : decode c with
  | none =>
    rw [hd] at h
    exact .inl ⟨rfl, (Host.Outcome.next.inj h).symm⟩
  | some i =>
    rw [hd] at h
    cases he : exec i s with
    | next t' =>
      simp only [he, recordOutcome, Host.Outcome.next.injEq] at h
      exact .inr (.inl ⟨i, rfl, h ▸ he⟩)
    | fault f =>
      simp only [he, recordOutcome, Host.Outcome.next.injEq] at h
      exact .inr (.inr ⟨i, f, rfl, he, h.symm⟩)
    | refused r => simp [he, recordOutcome] at h

/-- A command never refuses. -/
theorem exec_ne_refused (i : Instr) (s : State) (r : Refusal) : exec i s ≠ .refused r := by
  rw [exec_eq_runCommand]
  by_cases hc : Config.bufCap < s.len.toNat
  · rw [runCommand_over hc]
    simp
  · rw [runCommand_run (Nat.not_lt.1 hc)]
    cases opOf i i.base (windowLen i.base s) (beginCommand i.opcode s) <;> simp [endOp]

/-- Issuing a word always completes as a step (R200): it neither faults nor refuses. -/
theorem issueWord_completes (c : Word) (s : State) : ∃ t, issueWord c s = .next t := by
  unfold issueWord
  cases decode c with
  | none => exact ⟨_, rfl⟩
  | some i =>
    cases he : exec i s with
    | next t => exact ⟨t, by simp [he, recordOutcome]⟩
    | fault f => exact ⟨afterFault (cmdOpc c) f s, by simp [he, recordOutcome]⟩
    | refused r => exact absurd he (exec_ne_refused i s r)

/-- A word that decodes carries its command's opcode, so LAST_OPC is that opcode (R27). -/
theorem cmdOpc_of_decode {c : Word} {i : Instr} (h : decode c = some i) : cmdOpc c = i.opcode := by
  unfold decode at h
  split at h
  · exact ((decodeOpc_eq_some _ _ _).1 h).1
  · cases h

/-! ### A host action -/

/-- The ends of one host action that is a step (R12): `s` is the state with the action taken off the list. -/
inductive ActionEnds : HostAction → State → State → Prop where
  | readWord (size : AccessSize) (off : Nat) (s : State) (v : Word) (h : readReg s off = .ok v) :
      ActionEnds (.regRead size off) s (respond (.word v) s)
  | readFault (size : AccessSize) (off : Nat) (s : State) (f : Fault) (h : readReg s off = .error f) :
      ActionEnds (.regRead size off) s (recordFault f s)
  | issue (c : Word) (s t : State) (h : issueWord c s = .next t) : ActionEnds (cmdWrite c) s t
  | writeLen (v : Word) (s : State) : ActionEnds (.regWrite .word 0x008 v) s { s with len := v.setWidth 16 }
  | writeIgnored (off : Nat) (v : Word) (s : State) (h0 : off ≠ 0x000) (h8 : off ≠ 0x008) :
      ActionEnds (.regWrite .word off v) s s
  | fbufByte (a : Nat) (s : State) (b : Byte) (h : Memory.read s.fbuf a = some b) :
      ActionEnds (.fbufRead .byte a) s (respond (.byte b) s)
  | fbufFault (a : Nat) (s : State) (h : Memory.read s.fbuf a = none) :
      ActionEnds (.fbufRead .byte a) s (recordFault (.unwrittenFrameByte a) s)
  | fbufStore (a : Nat) (v : Word) (s : State) (h : a < Config.bufCap) :
      ActionEnds (.fbufWrite .byte a v) s (hostWriteFbuf a v s)
  | reset (s : State) : ActionEnds .reset s (resetBlock s)

/-- `perform` inverted: every next state is one of the ends. -/
theorem perform_next_ends {a : HostAction} {s t : State} (h : perform a s = .next t) : ActionEnds a s t := by
  cases a with
  | regRead size off =>
    cases hok : regAccessOk size off with
    | false => simp [perform, hok] at h
    | true =>
      simp only [perform, hok, Host.Outcome.next.injEq, hostReadReg] at h
      cases hr : readReg s off with
      | ok v =>
        simp only [hr] at h
        exact h ▸ .readWord _ _ _ _ hr
      | error f =>
        simp only [hr] at h
        exact h ▸ .readFault _ _ _ _ hr
  | regWrite size off v =>
    cases hok : regAccessOk size off with
    | false => simp [perform, hok] at h
    | true =>
      obtain ⟨rfl, -, -⟩ := (regAccessOk_iff _ _).1 hok
      simp only [perform, hok, hostWriteReg] at h
      by_cases h0 : off = 0x000
      · subst h0
        simp only [regAt_cmd] at h
        exact .issue _ _ _ h
      · by_cases h8 : off = 0x008
        · subst h8
          simp only [regAt_len, Host.Outcome.next.injEq] at h
          exact h ▸ .writeLen _ _
        · have hi : s = t := by
            split at h
            · exact absurd (regAt_eq_cmd ‹_›) h0
            · exact absurd (regAt_eq_len ‹_›) h8
            · exact Host.Outcome.next.inj h
          exact hi ▸ .writeIgnored _ _ _ h0 h8
  | fbufRead size off =>
    cases hok : fbufAccessOk size off with
    | false => simp [perform, hok] at h
    | true =>
      obtain ⟨rfl, -⟩ := (fbufAccessOk_iff _ _).1 hok
      simp only [perform, hok, Host.Outcome.next.injEq, hostReadFbuf] at h
      cases hr : Memory.read s.fbuf off with
      | some b =>
        simp only [hr] at h
        exact h ▸ .fbufByte _ _ _ hr
      | none =>
        simp only [hr] at h
        exact h ▸ .fbufFault _ _ hr
  | fbufWrite size off v =>
    cases hok : fbufAccessOk size off with
    | false => simp [perform, hok] at h
    | true =>
      obtain ⟨rfl, hlt⟩ := (fbufAccessOk_iff _ _).1 hok
      simp only [perform, hok, Host.Outcome.next.injEq] at h
      exact h ▸ .fbufStore _ _ _ hlt
  | reset => exact Host.Outcome.next.inj h ▸ .reset _

theorem step_nil {s : State} (h : s.pending = []) : step s = .next s := by
  simp [step, h]

theorem step_cons {s : State} {a : HostAction} {rest : List HostAction} (h : s.pending = a :: rest) :
    step s = perform a (s.withPending rest) := by
  simp [step, h]

/-- `step` inverted: the block was idle, or it performed the host's next action. -/
theorem step_next_cases {s t : State} (h : step s = .next t) :
    (s.pending = [] ∧ t = s) ∨
    (∃ a rest, s.pending = a :: rest ∧ ActionEnds a (s.withPending rest) t) := by
  cases hp : s.pending with
  | nil =>
    rw [step_nil hp] at h
    exact .inl ⟨rfl, (Host.Outcome.next.inj h).symm⟩
  | cons a rest =>
    rw [step_cons hp] at h
    exact .inr ⟨a, rest, rfl, perform_next_ends h⟩

end Sys2Proof.Laws
end

