-- ==== Sys2Proof/Tests/Slice0.lean ====
section
/-! SUPPORT. Tests: expected values from spec/30_encoding.md R88 and spec/95_test_vectors.md, words written out from
R80's format; and, for every obligation with hypotheses, states and operands that meet them. -/

namespace Sys2Proof.Tests

open Sys2Proof Sys2Proof.Machine

/-! ### Small states -/

/-- FBUF with the bytes `bs` written from offset `a` on. -/
def bytesAt : Nat → List Nat → Memory
  | _, [] => []
  | a, b :: bs => (a, BitVec.ofNat 8 b) :: bytesAt (a + 1) bs

/-- H20, the IPv4 header of 95_test_vectors.md. -/
def h20 : List Nat :=
  [0x45, 0x00, 0x00, 0x28, 0x1c, 0x46, 0x40, 0x00, 0x40, 0x06, 0xb1, 0xe6, 0xc0, 0xa8, 0x01, 0x01,
   0xc0, 0xa8, 0x01, 0x02]

/-- F34, the frame of 95_test_vectors.md. -/
def f34 : List Nat :=
  [0x00, 0x1a, 0x2b, 0x3c, 0x4d, 0x5e, 0xaa, 0xbb, 0xcc, 0xdd, 0xee, 0xff, 0x08, 0x00] ++ h20

/-- The state after reset with `bs` in FBUF from 0 on and LEN its length. -/
def loaded (bs : List Nat) : State :=
  { State.reset with fbuf := bytesAt 0 bs, len := BitVec.ofNat 16 bs.length }

/-- The same with another LEN. -/
def loadedLen (bs : List Nat) (len : Nat) : State :=
  { State.reset with fbuf := bytesAt 0 bs, len := BitVec.ofNat 16 len }

/-- The state with these host actions to come. -/
def doing (l : List HostAction) (s : State) : State := { s with pending := l }

/-- The next state of an outcome. -/
def after : Host.Outcome State Fault Refusal → Option State
  | .next t => some t
  | .fault _ => none
  | .refused _ => none

/-- The fault of an outcome. -/
def faultOf : Host.Outcome State Fault Refusal → Option Fault
  | .next _ => none
  | .fault f => some f
  | .refused _ => none

/-- The refusal of an outcome. -/
def refusalOf : Host.Outcome State Fault Refusal → Option Refusal
  | .next _ => none
  | .fault _ => none
  | .refused r => some r

/-- STATUS after a command. -/
def statusAfter (i : Instr) (s : State) : Option Word := (after (exec i s)).map fun t => t.status.toWord

/-- STATUS after a host action. -/
def statusAfterAction (a : HostAction) (s : State) : Option Word :=
  (after (step (doing [a] s))).map fun t => t.status.toWord

/-- What reads at these offsets give after a command; `none` is a read that faults. -/
def regsAfter (i : Instr) (s : State) (offs : List Nat) : List (Option Word) :=
  match exec i s with
  | .next t => offs.map fun o => (readReg t o).toOption
  | .fault _ => []
  | .refused _ => []

/-- The window bytes of a list, as a function of the index. -/
def window (bs : List Nat) : Nat → Byte := fun k => BitVec.ofNat 8 (bs.getD k 0)

theorem le_cap {n : Nat} (h : n ≤ 74) : n ≤ Config.bufCap := h.trans Config.bufCap_ge

/-! ### WellFormed: the one check -/

theorem test_wf_refuses_base_65536 : (Instr.ethDecode 65536).wellFormed = false := by decide

theorem test_wf_accepts_base_65535 : (Instr.ethDecode 65535).wellFormed = true := by decide

/-! ### Decoding: words written out from the format ARG, RSV, OPC (R80) and the opcode map (R82) -/

theorem test_decode_ethDecode :
    decode (0b0000000000000010#16 ++ (0b00000000#8 ++ 0b00000001#8)) = some (.ethDecode 2) := by decide

theorem test_decode_ipv4Decode :
    decode (0b0000000000001110#16 ++ (0b00000000#8 ++ 0b00000010#8)) = some (.ipv4Decode 14) := by decide

theorem test_decode_frameDecode :
    decode (0b1111111111111111#16 ++ (0b00000000#8 ++ 0b00000011#8)) = some (.frameDecode 65535) := by decide

theorem test_decode_rdU16Be :
    decode (0b0000000000001100#16 ++ (0b00000000#8 ++ 0b00010000#8)) = some (.rdU16Be 12) := by decide

theorem test_decode_rdU32Be :
    decode (0b0000000000011010#16 ++ (0b00000000#8 ++ 0b00010001#8)) = some (.rdU32Be 26) := by decide

theorem test_decode_macFmt :
    decode (0b0000000000000110#16 ++ (0b00000000#8 ++ 0b00100000#8)) = some (.macFmt 6) := by decide

theorem test_decode_ipv4AddrFmt :
    decode (0b1000000000000001#16 ++ (0b00000000#8 ++ 0b00100001#8)) = some (.ipv4AddrFmt 32769) := by decide

/-- The edges of R83's reserved ranges, and a nonzero RSV, select no command. -/
theorem test_decode_reserved :
    [0x00#32, 0x04#32, 0x0F#32, 0x12#32, 0x1F#32, 0x22#32, 0xFF#32, 0x0101#32, 0x8002#32].map decode =
      List.replicate 9 none := by decide

theorem test_decodeTableWord : decodeTableWord 32 0x001A0011 = some (.rdU32Be 26) := by decide

/-- A row's word shorter than a register word is padded with zeros above. -/
theorem test_decodeTableWord_short : decodeTableWord 8 0x20 = some (.macFmt 0) := by decide

/-! ### The assembler (R86, R87) -/

theorem test_assemble_command_with_comment :
    assembleText ['R', 'D', '_', 'U', '1', '6', '_', 'B', 'E', ' ', '0', 'x', '1', '0', ' ', ';', 'x'] =
      some (some 0x00100010#32) := by decide

theorem test_assemble_word : assembleText ['.', 'w', 'o', 'r', 'd', ' ', '0', 'x', '1', '0', '1'] =
    some (some 0x00000101#32) := by decide

theorem test_assemble_pseudo :
    assembleText ['I', 'P', 'V', '4', '_', 'A', 'F', 'T', 'E', 'R', '_', 'E', 'T', 'H', ' ', '0'] =
      some (some 0x000E0002#32) := by decide

/-- A base above 65535, and a pseudo-instruction whose condition fails, are assembly errors; so is a mnemonic in
lower case. -/
theorem test_assemble_errors :
    assembleText ['M', 'A', 'C', '_', 'F', 'M', 'T', ' ', '6', '5', '5', '3', '6'] = none ∧
    assembleLine (.macFmtSrc 65530) = none ∧ assembleText ['d', 'e', 'c', 'o', 'd', 'e'] = none := by decide

/-! ### Commands: vectors of 95_test_vectors.md -/

/-- V-ETH-1. -/
theorem test_ethDecode_f34 :
    regsAfter (.ethDecode 0) (loaded f34)
        [0x004, 0x010, 0x014, 0x018, 0x01C, 0x020, 0x024, 0x0A0, 0x0A4, 0x0A8, 0x0AC, 0x0B0, 0x0C0, 0x0D0, 0x030] =
      [some 0x00010110#32, some 0x0000001A#32, some 0x2B3C4D5E#32, some 0x0000AABB#32, some 0xCCDDEEFF#32,
       some 0x00000800#32, some 0x0014000E#32, some 0x30303A31#32, some 0x613A3262#32, some 0x3A33633A#32,
       some 0x34643A35#32, some 0x65000000#32, some 0x61613A62#32, some 0x66000000#32, none] := by decide

/-- V-ETH-8: a base that is not 0. -/
theorem test_ethDecode_base_2 :
    regsAfter (.ethDecode 2) (loaded (0xee :: 0xee :: f34)) [0x004, 0x010, 0x024] =
      [some 0x00010110#32, some 0x0000001A#32, some 0x00140010#32] := by decide

/-- V-L1-6: the 13-bit mask. -/
theorem test_ipv4Decode_mask_width :
    regsAfter (.ipv4Decode 0) (loaded ((h20.set 6 0x3f).set 7 0xff)) [0x004, 0x040, 0x044, 0x05C] =
      [some 0x00020020#32, some 0x00000001#32, some 0x00001FFF#32, some 0x00000014#32] := by decide

/-- V-IP-7: options, and V-IP-10's version nibble left unchecked. -/
theorem test_ipv4Decode_options :
    regsAfter (.ipv4Decode 0) (loaded (h20.set 0 0x66 ++ [0x01, 0x01, 0x01, 0x00])) [0x004, 0x030, 0x05C, 0x060] =
      [some 0x00020020#32, some 0x00180606#32, some 0x00040014#32, some 0x00000018#32] := by decide

/-- V-FRAME-1, its IP group as V-L1-3. -/
theorem test_frameDecode_f34 :
    regsAfter (.frameDecode 0) (loaded f34)
        [0x004, 0x020, 0x030, 0x034, 0x038, 0x03C, 0x040, 0x044, 0x048, 0x04C, 0x050, 0x054, 0x058, 0x05C, 0x060,
         0x064, 0x0E0, 0x0E8, 0x0F8, 0x0FC] =
      [some 0x00030130#32, some 0x00000800#32, some 0x00140504#32, some 0#32, some 0x28#32, some 0x1C46#32,
       some 0x2#32, some 0#32, some 0x40#32, some 0x6#32, some 0xB1E6#32, some 0xC0A80101#32, some 0xC0A80102#32,
       some 0x22#32, some 0x22#32, some 0x0B0B#32, some 0x3139322E#32, some 0x312E3100#32, some 0x312E3200#32,
       some 0#32] := by decide

/-- V-FRAME-5: MalformedHeader keeps the ETH group and hides the IP group. -/
theorem test_frameDecode_malformed :
    regsAfter (.frameDecode 0) (loaded (f34.set 14 0x44)) [0x004, 0x024, 0x030] =
      [some 0x00030113#32, some 0x0014000E#32, none] := by decide

/-- V-RD-1. -/
theorem test_rdU16Be_etherType :
    regsAfter (.rdU16Be 12) (loaded f34) [0x004, 0x070] = [some 0x00100040#32, some 0x00000800#32] := by decide

/-- V-RD-5. -/
theorem test_rdU16Be_short :
    regsAfter (.rdU16Be 33) (loaded f34) [0x004, 0x070] = [some 0x00100001#32, none] := by decide

/-- V-RD-6. -/
theorem test_rdU32Be_source :
    regsAfter (.rdU32Be 26) (loaded f34) [0x004, 0x070] = [some 0x00110040#32, some 0xC0A80101#32] := by decide

/-- V-RD-7: no sign. -/
theorem test_rdU32Be_ones :
    regsAfter (.rdU32Be 0) (loaded [0xff, 0xff, 0xff, 0xff]) [0x004, 0x070] =
      [some 0x00110040#32, some 0xFFFFFFFF#32] := by decide

/-- V-FMT-5. -/
theorem test_macFmt_digits :
    regsAfter (.macFmt 0) (loaded [0x0a, 0x1b, 0x2c, 0x3d, 0x4e, 0x5f]) [0x004, 0x074, 0x080, 0x084, 0x088, 0x08C, 0x090] =
      [some 0x00200080#32, some 0x11#32, some 0x30613A31#32, some 0x623A3263#32, some 0x3A33643A#32,
       some 0x34653A35#32, some 0x66000000#32] := by decide

/-- V-FMT-7. -/
theorem test_macFmt_short :
    regsAfter (.macFmt 29) (loaded f34) [0x004, 0x074] = [some 0x00200001#32, none] := by decide

/-- V-FMT-11. -/
theorem test_ipv4AddrFmt_longest :
    regsAfter (.ipv4AddrFmt 0) (loaded [0xff, 0xff, 0xff, 0xff]) [0x004, 0x074, 0x080, 0x08C, 0x090] =
      [some 0x00210080#32, some 0x0F#32, some 0x3235352E#32, some 0x32353500#32, some 0#32] := by decide

/-- V-FMT-12. -/
theorem test_ipv4AddrFmt_shortest :
    regsAfter (.ipv4AddrFmt 0) (loaded [0x08, 0x08, 0x04, 0x04]) [0x074, 0x080, 0x084, 0x088] =
      [some 0x07#32, some 0x382E382E#32, some 0x342E3400#32, some 0#32] := by decide

/-- V-IP-18: an unwritten byte of the read set faults, and the length check comes before it. -/
theorem test_unwritten_byte_faults :
    faultOf (exec (.ipv4Decode 0) (loadedLen (h20.take 19) 20)) = some (.unwrittenFrameByte 19) ∧
    statusAfter (.ipv4Decode 0) (loadedLen (h20.take 19) 19) = some 0x00020002#32 := by decide

/-! ### Steps: command errors, the register interface, the fault record -/

/-- V-CE-1, V-CE-3, V-CE-4, V-CE-6. -/
theorem test_step_command_errors :
    [0x00000000#32, 0x00000101#32, 0x000000FF#32, 0x0000FF02#32].map
        (fun c => statusAfterAction (cmdWrite c) (loaded f34)) =
      [some 0x00000004#32, some 0x00010004#32, some 0x00FF0004#32, some 0x00020004#32] := by decide

/-- V-ETH-10: the word placed by withFetchWord is the very next thing to run. -/
theorem test_step_withFetchWord :
    (after (step (State.reset.withFetchWord 32 0x00000001))).map (fun t => t.status.toWord) = some 0x00010001#32 := by
  decide

/-- V-ETH-11: the fault is recorded, the run goes on, the command's groups have no value. -/
theorem test_step_records_fault :
    (after (step (doing [cmdWrite 0x00000001#32] (loadedLen (f34.take 13) 14)))).map
        (fun t => (t.faults, t.status.ethValid, t.status.lastOpc)) =
      some ([.unwrittenFrameByte 13], false, 0x01#8) := by decide

/-- V-REG-2. -/
theorem test_step_write_len :
    (after (step (doing [.regWrite .word 0x008 0xABCD0022#32] State.reset))).map (fun t => t.len) = some 0x0022#16 := by
  decide

/-- V-REG-3. -/
theorem test_step_writes_ignored :
    [0x004, 0x00C, 0x054, 0x068].map (fun o => after (step (doing [.regWrite .word o 0x12345678#32] (loaded f34)))) =
      List.replicate 4 (some (loaded f34)) := by decide

/-- V-REG-5, with an FBUF access as wide as a word (log 10). -/
theorem test_step_refuses_outside :
    [HostAction.regRead .word 0x002, .regRead .byte 0x004, .regRead .word 0x100, .fbufRead .word 0].map
        (fun a => refusalOf (step (doing [a] State.reset))) =
      List.replicate 4 (some .hostAccessOutOfInterface) := by decide

/-- V-REG-6. -/
theorem test_step_reads_invalid_result :
    (after (step (doing [.regRead .word 0x070] State.reset))).map (fun t => (t.faults, t.responses)) =
      some ([.readOfInvalidResult 0x070], []) := by decide

/-- V-REG-1 and V-REG-4: STATUS, and a reserved offset. -/
theorem test_step_reads :
    (after (step (doing [.regRead .word 0x004] State.reset))).map (fun t => t.responses) = some [.word 0x0000000F#32] ∧
    (after (step (doing [.regRead .word 0x0DC] State.reset))).map (fun t => t.responses) = some [.word 0#32] := by
  decide

/-- An FBUF byte written is the byte then read. -/
theorem test_step_fbuf_write :
    (after (step (doing [.fbufWrite .byte 5 0x1AB#32] State.reset))).map (fun t => t.fbuf) = some [(5, 0xAB#8)] := by
  decide

/-! ### Witnesses: for each obligation with hypotheses, states and operands that meet them together, one for each
clause, at the edges of its range -/

/-- An outcome that is a next state with a property, from one evaluation. -/
theorem next_of {o : Host.Outcome State Fault Refusal} {p : State → Bool} (h : (after o).any p = true) :
    ∃ t, o = .next t ∧ p t = true := by
  cases o with
  | next t => exact ⟨t, rfl, by simpa [after] using h⟩
  | fault f => simp [after] at h
  | refused r => simp [after] at h

theorem fault_of {o : Host.Outcome State Fault Refusal} {f : Fault} (h : faultOf o = some f) : o = .fault f := by
  cases o with
  | next t => simp [faultOf] at h
  | fault g => exact congrArg _ (Option.some.inj h)
  | refused r => simp [faultOf] at h

/-- The lowest unwritten offset, when every byte of the region below it is written. -/
theorem first_unwritten {s : State} {n a : Nat} (h : a < n) (hu : Memory.read s.fbuf a = none)
    (hw : ∀ b, b < a → Memory.read s.fbuf b ≠ none) : FirstUnwritten s 0 n a :=
  ⟨Nat.zero_le _, by omega, hu, fun b _ hb => hw b hb⟩

/-- The same in the 20 bytes of an IPv4 header at offset 14. -/
theorem first_unwritten_14 {s : State} {a : Nat} (h1 : 14 ≤ a) (h2 : a < 34) (hu : Memory.read s.fbuf a = none)
    (hw : ∀ b, b < a → Memory.read s.fbuf b ≠ none) : FirstUnwritten s 14 20 a :=
  ⟨h1, by omega, hu, fun b _ hb => hw b hb⟩

/-- F34 with IHL 6 and four option bytes. -/
def f38 : List Nat := f34.set 14 0x46 ++ [0x01, 0x01, 0x01, 0x00]

/-- F34 with EtherType 0x86DD. -/
def f34v6 : List Nat := (f34.set 12 0x86).set 13 0xdd

/-- A state like `loaded f34` whose other registers hold something else. -/
def loadedOther : State :=
  { loaded f34 with rdValue := 7#32, fbuf := bytesAt 0 (f34 ++ [0xee]), status := ⟨.malformedHeader, true, true, true, true, true, 9#8⟩ }

theorem holds_f34 : WindowHolds (loaded f34) 0 34 (window f34) := by unfold WindowHolds; decide

theorem witness_DecodeOfEncode :
    (Instr.frameDecode 65535).wellFormed = true ∧ (Instr.rdU16Be 0).wellFormed = true := by decide

theorem witness_AssemblerWords : (Instr.macFmt 65535).base ≤ 65535 ∧ 65535 < (Instr.macFmt 65536).base := by decide

theorem witness_PseudoInstructionExpansions :
    65523 + 12 ≤ 65535 ∧ 65535 < 65524 + 12 ∧ 65529 + 6 ≤ 65535 ∧ 65535 < 65530 + 6 ∧ 65521 + 14 ≤ 65535 ∧
      65535 < 65522 + 14 ∧ (['M', 'A', 'C', '_', 'F', 'M', 'T'], Instr.macFmt) ∈ commandNames := by
  simp [commandNames]

theorem witness_StepRunsDecodedCommand_next :
    (doing [cmdWrite 0x00000003#32] (loaded f34)).pending = cmdWrite 0x00000003#32 :: [] ∧
      decode 0x00000003#32 = some (.frameDecode 0) ∧
      ∃ t, exec (.frameDecode 0) { doing [cmdWrite 0x00000003#32] (loaded f34) with pending := [] } = .next t ∧
        t.status.ipValid = true :=
  ⟨rfl, by decide, next_of (by decide)⟩

theorem witness_StepRunsDecodedCommand_fault :
    (doing [cmdWrite 0x00000001#32] (loadedLen (f34.take 13) 14)).pending = cmdWrite 0x00000001#32 :: [] ∧
      decode 0x00000001#32 = some (.ethDecode 0) ∧
      exec (.ethDecode 0) { doing [cmdWrite 0x00000001#32] (loadedLen (f34.take 13) 14) with pending := [] } =
        .fault (.unwrittenFrameByte 13) :=
  ⟨rfl, by decide, fault_of (by decide)⟩

/-- A reserved OPC, at an edge of R83's list. -/
theorem witness_CommandErrorCompletes_opc :
    (doing [cmdWrite 0x00000022#32] (loaded f34)).pending = cmdWrite 0x00000022#32 :: [] ∧
      reservedOpc ((0x00000022#32).toNat % 256) :=
  ⟨rfl, by unfold reservedOpc; decide⟩

/-- A defined OPC with RSV = 1. -/
theorem witness_CommandErrorCompletes_rsv :
    (doing [cmdWrite 0x00000101#32] (loaded f34)).pending = cmdWrite 0x00000101#32 :: [] ∧
      (0x00000101#32).toNat / 256 % 256 ≠ 0 :=
  ⟨rfl, by decide⟩

/-- LEN above BUF_CAP, which a capacity of 65535 does not allow (95_test_vectors.md P4). -/
theorem witness_CommandErrorCompletes_len (h : Config.bufCap < 65535) :
    (doing [cmdWrite 0x00000001#32] (loadedLen f34 65535)).pending = cmdWrite 0x00000001#32 :: [] ∧
      Config.bufCap < (loadedLen f34 65535).len.toNat :=
  ⟨rfl, h⟩

theorem witness_EthDecodeEffect_ok :
    65535 < 2 ^ 16 ∧ (loaded (f34.take 14)).len.toNat ≤ Config.bufCap ∧ 0 + 14 ≤ (loaded (f34.take 14)).len.toNat ∧
      WindowHolds (loaded (f34.take 14)) 0 14 (window f34) :=
  ⟨by decide, le_cap (by decide), by decide, by unfold WindowHolds; decide⟩

theorem witness_EthDecodeEffect_short :
    (loaded (f34.take 13)).len.toNat ≤ Config.bufCap ∧ (loaded (f34.take 13)).len.toNat < 0 + 14 :=
  ⟨le_cap (by decide), by decide⟩

theorem witness_EthDecodeEffect_fault :
    (loadedLen (f34.take 13) 14).len.toNat ≤ Config.bufCap ∧ 0 + 14 ≤ (loadedLen (f34.take 13) 14).len.toNat ∧
      FirstUnwritten (loadedLen (f34.take 13) 14) 0 14 13 :=
  ⟨le_cap (by decide), by decide, first_unwritten (by decide) (by decide) (by decide)⟩

theorem witness_Ipv4DecodeEffect_short :
    (loaded (h20.take 19)).len.toNat ≤ Config.bufCap ∧ (loaded (h20.take 19)).len.toNat < 0 + 20 :=
  ⟨le_cap (by decide), by decide⟩

theorem witness_Ipv4DecodeEffect_fault :
    (loadedLen (h20.take 19) 20).len.toNat ≤ Config.bufCap ∧ 0 + 20 ≤ (loadedLen (h20.take 19) 20).len.toNat ∧
      FirstUnwritten (loadedLen (h20.take 19) 20) 0 20 19 :=
  ⟨le_cap (by decide), by decide, first_unwritten (by decide) (by decide) (by decide)⟩

theorem witness_Ipv4DecodeEffect_malformed :
    (loaded (h20.set 0 0x44)).len.toNat ≤ Config.bufCap ∧ 0 + 20 ≤ (loaded (h20.set 0 0x44)).len.toNat ∧
      WindowHolds (loaded (h20.set 0 0x44)) 0 20 (window (h20.set 0 0x44)) ∧ ihlField (window (h20.set 0 0x44)) < 5 :=
  ⟨le_cap (by decide), by decide, by unfold WindowHolds; decide, by decide⟩

theorem witness_Ipv4DecodeEffect_truncated :
    (loaded (h20.set 0 0x46)).len.toNat ≤ Config.bufCap ∧ 0 + 20 ≤ (loaded (h20.set 0 0x46)).len.toNat ∧
      WindowHolds (loaded (h20.set 0 0x46)) 0 20 (window (h20.set 0 0x46)) ∧ 5 ≤ ihlField (window (h20.set 0 0x46)) ∧
      (loaded (h20.set 0 0x46)).len.toNat < 0 + ihlField (window (h20.set 0 0x46)) * 4 :=
  ⟨le_cap (by decide), by decide, by unfold WindowHolds; decide, by decide, by decide⟩

/-- IHL 5 in a window of 20 bytes. -/
theorem witness_Ipv4DecodeEffect_ok :
    (loaded h20).len.toNat ≤ Config.bufCap ∧ WindowHolds (loaded h20) 0 20 (window h20) ∧ 5 ≤ ihlField (window h20) ∧
      0 + ihlField (window h20) * 4 ≤ (loaded h20).len.toNat :=
  ⟨le_cap (by decide), by unfold WindowHolds; decide, by decide, by decide⟩

theorem witness_FrameDecodeEffect_short :
    (loaded (f34.take 13)).len.toNat ≤ Config.bufCap ∧ (loaded (f34.take 13)).len.toNat < 0 + 14 :=
  witness_EthDecodeEffect_short

theorem witness_FrameDecodeEffect_fault :
    (loadedLen (f34.take 13) 14).len.toNat ≤ Config.bufCap ∧ 0 + 14 ≤ (loadedLen (f34.take 13) 14).len.toNat ∧
      FirstUnwritten (loadedLen (f34.take 13) 14) 0 14 13 :=
  witness_EthDecodeEffect_fault

theorem witness_FrameDecodeEffect_other :
    (loaded f34v6).len.toNat ≤ Config.bufCap ∧ 0 + 14 ≤ (loaded f34v6).len.toNat ∧
      WindowHolds (loaded f34v6) 0 14 (window f34v6) ∧ (window f34v6 12 ++ window f34v6 13 : Half) ≠ 0x0800#16 :=
  ⟨le_cap (by decide), by decide, by unfold WindowHolds; decide, by decide⟩

/-- EtherType 0x0800, and 19 payload bytes. -/
theorem witness_FrameDecodeEffect_ip_short :
    (loaded (f34.take 33)).len.toNat ≤ Config.bufCap ∧ 0 + 14 ≤ (loaded (f34.take 33)).len.toNat ∧
      WindowHolds (loaded (f34.take 33)) 0 14 (window f34) ∧ (window f34 12 ++ window f34 13 : Half) = 0x0800#16 ∧
      (loaded (f34.take 33)).len.toNat < 0 + 34 :=
  ⟨le_cap (by decide), by decide, by unfold WindowHolds; decide, by decide, by decide⟩

/-- The last byte of the IPv4 header is unwritten. -/
theorem witness_FrameDecodeEffect_ip_fault :
    (loadedLen (f34.take 33) 34).len.toNat ≤ Config.bufCap ∧ 0 + 14 ≤ (loadedLen (f34.take 33) 34).len.toNat ∧
      WindowHolds (loadedLen (f34.take 33) 34) 0 14 (window f34) ∧
      (window f34 12 ++ window f34 13 : Half) = 0x0800#16 ∧ 0 + 34 ≤ (loadedLen (f34.take 33) 34).len.toNat ∧
      FirstUnwritten (loadedLen (f34.take 33) 34) (0 + 14) 20 33 :=
  ⟨le_cap (by decide), by decide, by unfold WindowHolds; decide, by decide, by decide,
    first_unwritten_14 (by decide) (by decide) (by decide) (by decide)⟩

theorem witness_FrameDecodeEffect_ip_malformed :
    (loaded (f34.set 14 0x44)).len.toNat ≤ Config.bufCap ∧ 0 + 34 ≤ (loaded (f34.set 14 0x44)).len.toNat ∧
      WindowHolds (loaded (f34.set 14 0x44)) 0 34 (window (f34.set 14 0x44)) ∧
      (window (f34.set 14 0x44) 12 ++ window (f34.set 14 0x44) 13 : Half) = 0x0800#16 ∧
      ihlField (fun k => window (f34.set 14 0x44) (14 + k)) < 5 :=
  ⟨le_cap (by decide), by decide, by unfold WindowHolds; decide, by decide, by decide⟩

theorem witness_FrameDecodeEffect_ip_truncated :
    (loaded (f34.set 14 0x46)).len.toNat ≤ Config.bufCap ∧ 0 + 34 ≤ (loaded (f34.set 14 0x46)).len.toNat ∧
      WindowHolds (loaded (f34.set 14 0x46)) 0 34 (window (f34.set 14 0x46)) ∧
      (window (f34.set 14 0x46) 12 ++ window (f34.set 14 0x46) 13 : Half) = 0x0800#16 ∧
      5 ≤ ihlField (fun k => window (f34.set 14 0x46) (14 + k)) ∧
      (loaded (f34.set 14 0x46)).len.toNat < 0 + 14 + ihlField (fun k => window (f34.set 14 0x46) (14 + k)) * 4 :=
  ⟨le_cap (by decide), by decide, by unfold WindowHolds; decide, by decide, by decide, by decide⟩

/-- IHL 6 in a payload of 24 bytes. -/
theorem witness_FrameDecodeEffect_ok :
    (loaded f38).len.toNat ≤ Config.bufCap ∧ 0 + 14 ≤ (loaded f38).len.toNat ∧
      WindowHolds (loaded f38) 0 34 (window f38) ∧ (window f38 12 ++ window f38 13 : Half) = 0x0800#16 ∧
      5 ≤ ihlField (fun k => window f38 (14 + k)) ∧
      0 + 14 + ihlField (fun k => window f38 (14 + k)) * 4 ≤ (loaded f38).len.toNat :=
  ⟨le_cap (by decide), by decide, by unfold WindowHolds; decide, by decide, by decide, by decide⟩

/-- The last two, four and six bytes of F34, one byte less of each, and a hole in each. -/
theorem witness_RdU16BeEffect_ok :
    (loaded f34).len.toNat ≤ Config.bufCap ∧ 32 + 2 ≤ (loaded f34).len.toNat ∧
      WindowHolds (loaded f34) 32 2 (fun k => window f34 (32 + k)) :=
  ⟨le_cap (by decide), by decide, by unfold WindowHolds; decide⟩

theorem witness_RdU16BeEffect_short :
    (loaded f34).len.toNat ≤ Config.bufCap ∧ (loaded f34).len.toNat < 33 + 2 :=
  ⟨le_cap (by decide), by decide⟩

theorem witness_RdU16BeEffect_fault :
    (loadedLen [0x12] 2).len.toNat ≤ Config.bufCap ∧ 0 + 2 ≤ (loadedLen [0x12] 2).len.toNat ∧
      FirstUnwritten (loadedLen [0x12] 2) 0 2 1 :=
  ⟨le_cap (by decide), by decide, first_unwritten (by decide) (by decide) (by decide)⟩

theorem witness_RdU32BeEffect_ok :
    (loaded f34).len.toNat ≤ Config.bufCap ∧ 30 + 4 ≤ (loaded f34).len.toNat ∧
      WindowHolds (loaded f34) 30 4 (fun k => window f34 (30 + k)) :=
  ⟨le_cap (by decide), by decide, by unfold WindowHolds; decide⟩

theorem witness_RdU32BeEffect_short :
    (loaded f34).len.toNat ≤ Config.bufCap ∧ (loaded f34).len.toNat < 31 + 4 :=
  ⟨le_cap (by decide), by decide⟩

theorem witness_RdU32BeEffect_fault :
    (loadedLen [] 4).len.toNat ≤ Config.bufCap ∧ 0 + 4 ≤ (loadedLen [] 4).len.toNat ∧
      FirstUnwritten (loadedLen [] 4) 0 4 0 :=
  ⟨le_cap (by decide), by decide, first_unwritten (by decide) (by decide) (by decide)⟩

theorem witness_MacFmtEffect_ok :
    (loaded f34).len.toNat ≤ Config.bufCap ∧ 28 + 6 ≤ (loaded f34).len.toNat ∧
      WindowHolds (loaded f34) 28 6 (fun k => window f34 (28 + k)) :=
  ⟨le_cap (by decide), by decide, by unfold WindowHolds; decide⟩

theorem witness_MacFmtEffect_short :
    (loaded f34).len.toNat ≤ Config.bufCap ∧ (loaded f34).len.toNat < 29 + 6 :=
  ⟨le_cap (by decide), by decide⟩

theorem witness_MacFmtEffect_fault :
    (loadedLen (f34.take 5) 6).len.toNat ≤ Config.bufCap ∧ 0 + 6 ≤ (loadedLen (f34.take 5) 6).len.toNat ∧
      FirstUnwritten (loadedLen (f34.take 5) 6) 0 6 5 :=
  ⟨le_cap (by decide), by decide, first_unwritten (by decide) (by decide) (by decide)⟩

theorem witness_Ipv4AddrFmtEffect_ok :
    (loaded f34).len.toNat ≤ Config.bufCap ∧ 30 + 4 ≤ (loaded f34).len.toNat ∧
      WindowHolds (loaded f34) 30 4 (fun k => window f34 (30 + k)) :=
  witness_RdU32BeEffect_ok

theorem witness_Ipv4AddrFmtEffect_short :
    (loaded f34).len.toNat ≤ Config.bufCap ∧ (loaded f34).len.toNat < 31 + 4 :=
  witness_RdU32BeEffect_short

theorem witness_Ipv4AddrFmtEffect_fault :
    (loadedLen [] 4).len.toNat ≤ Config.bufCap ∧ 0 + 4 ≤ (loadedLen [] 4).len.toNat ∧
      FirstUnwritten (loadedLen [] 4) 0 4 0 :=
  witness_RdU32BeEffect_fault

theorem witness_EthDecodeTotal :
    (loaded (f34.take 14)).len.toNat ≤ Config.bufCap ∧ 14 ≤ windowLen 0 (loaded (f34.take 14)) ∧
      (∀ k, k < 14 → Memory.read (loaded (f34.take 14)).fbuf (0 + k) ≠ none) ∧
      (loaded (f34.take 13)).len.toNat ≤ Config.bufCap ∧ windowLen 0 (loaded (f34.take 13)) < 14 ∧
      windowLen 40 (loaded f34) < 14 :=
  ⟨le_cap (by decide), by decide, by decide, le_cap (by decide), by decide, by decide⟩

theorem witness_StoredSumsDoNotWrap :
    (∃ t, exec (.ethDecode 20) (loaded f34) = .next t ∧ t.status.ethValid = true) ∧
    (∃ t, exec (.ipv4Decode 14) (loaded f34) = .next t ∧ t.status.ipValid = true) ∧
    (∃ t, exec (.frameDecode 0) (loaded f38) = .next t ∧ (t.status.ethValid && t.status.ipValid) = true) :=
  ⟨next_of (by decide), next_of (by decide), next_of (by decide)⟩

theorem witness_CodesRaisedBy :
    (∃ t, exec (.macFmt 29) (loaded f34) = .next t ∧ decide (t.status.code = .truncatedFrame) = true) ∧
    (∃ t, exec (.ipv4Decode 15) (loaded f34) = .next t ∧ decide (t.status.code = .truncatedHeader) = true) ∧
    (∃ t, exec (.frameDecode 0) (loaded (f34.set 14 0x40)) = .next t ∧
      decide (t.status.code = .malformedHeader) = true) :=
  ⟨next_of (by decide), next_of (by decide), next_of (by decide)⟩

theorem witness_CommandFrame : ∃ t, exec (.ipv4AddrFmt 26) loadedOther = .next t ∧ t.status.fmtValid = true :=
  next_of (by decide)

/-- A group left invalid, a group made valid, and an OK of a command other than FRAME_DECODE. -/
theorem witness_GroupsWrittenByTheirCommands :
    (∃ t, exec (.rdU16Be 12) loadedOther = .next t ∧
      (!t.status.ethValid && !t.status.ipValid && t.status.rdValid && !t.status.fmtValid) = true) ∧
    (∃ t, exec (.macFmt 0) loadedOther = .next t ∧ (!t.status.rdValid && decide (t.status.code = .ok)) = true) ∧
    (∀ b, Instr.macFmt 0 ≠ .frameDecode b) :=
  ⟨next_of (by decide), next_of (by decide), fun _ => by simp⟩

theorem witness_EarlierResultsUnreadable :
    (∃ t, exec (.ipv4Decode 14) loadedOther = .next t ∧ t.status.ipValid = true) ∧ (0x020, Reg.ethType) ∈ regMap ∧
      Reg.ethType.group = some .eth ∧ Group.eth ∉ groupsOf (.ipv4Decode 14) :=
  ⟨next_of (by decide), by decide, rfl, by decide⟩

/-- Two states that differ in RD_VALUE, in STATUS and in a byte outside the read set. -/
theorem witness_CommandDependsOnReadSet_next :
    loadedOther.len = (loaded f34).len ∧
      (∀ a, a ∈ readSet (.frameDecode 0) (loaded f34) →
        Memory.read loadedOther.fbuf a = Memory.read (loaded f34).fbuf a) ∧
      (∃ t, exec (.frameDecode 0) (loaded f34) = .next t ∧ t.status.ipValid = true) ∧ loadedOther ≠ loaded f34 :=
  ⟨rfl, by decide, next_of (by decide), by decide⟩

/-- FBUF with one of the two bytes read. -/
def holed (s : State) : State := { s with fbuf := bytesAt 32 [0xc0] }

theorem witness_CommandDependsOnReadSet_fault :
    (holed loadedOther).len = (holed (loaded f34)).len ∧
      (∀ a, a ∈ readSet (.rdU16Be 32) (holed (loaded f34)) →
        Memory.read (holed loadedOther).fbuf a = Memory.read (holed (loaded f34)).fbuf a) ∧
      exec (.rdU16Be 32) (holed (loaded f34)) = .fault (.unwrittenFrameByte 33) :=
  ⟨rfl, by decide, fault_of (by decide)⟩

theorem witness_CommandsAreIdempotent :
    ∃ t, exec (.frameDecode 0) loadedOther = .next t ∧ decide (t ≠ loadedOther) = true :=
  next_of (by decide)

/-- The Ethernet step alone, and both steps. -/
theorem witness_FrameEqualsSequence :
    0 + 14 ≤ 65535 ∧ (∃ t, exec (.frameDecode 0) (loaded f34v6) = .next t ∧ (!t.status.isIpv4) = true) ∧
      (∃ t, exec (.frameDecode 0) (loaded f34) = .next t ∧ t.status.isIpv4 = true) :=
  ⟨by decide, next_of (by decide), next_of (by decide)⟩

theorem witness_MixedWidthReadsAgree :
    loadedOther.len = (loaded f34).len ∧
      (∀ k, k < 4 → Memory.read loadedOther.fbuf (30 + k) = Memory.read (loaded f34).fbuf (30 + k)) ∧
      (∀ k, k < 6 → Memory.read loadedOther.fbuf (0 + k) = Memory.read (loaded f34).fbuf (0 + k)) ∧
      (∃ t, exec (.rdU32Be 30) (loaded f34) = .next t ∧ t.status.rdValid = true) ∧
      (∃ u, exec (.rdU16Be 30) loadedOther = .next u ∧ u.status.rdValid = true) ∧
      (∃ v, exec (.rdU16Be (30 + 2)) loadedOther = .next v ∧ v.status.rdValid = true) ∧
      (∃ e, exec (.ethDecode 0) (loaded f34) = .next e ∧ e.status.ethValid = true) ∧
      (∃ u, exec (.rdU16Be 0) loadedOther = .next u ∧ u.status.rdValid = true) ∧
      (∃ x, exec (.rdU32Be (0 + 2)) loadedOther = .next x ∧ x.status.rdValid = true) :=
  ⟨rfl, by decide, by decide, next_of (by decide), next_of (by decide), next_of (by decide), next_of (by decide),
    next_of (by decide), next_of (by decide)⟩

theorem witness_HeaderRoundTrip_decode :
    (∃ t, exec (.ipv4Decode 0) (loaded h20) = .next t ∧ t.status.ipValid = true) ∧
      WindowHolds (loaded h20) 0 20 (window h20) :=
  ⟨next_of (by decide), by unfold WindowHolds; decide⟩

/-- V-L1-9: the field record of V-L1-3, its header the bytes of H20; and IHL 15 with 40 option bytes. -/
def headerFields (ihl : BitVec 4) : Ipv4Fields :=
  ⟨4#4, ihl, 0#8, 0x0028#16, 0x1C46#16, 2#3, 0#13, 0x40#8, 6#8, 0xB1E6#16, 0xC0A80101#32, 0xC0A80102#32⟩

theorem witness_HeaderRoundTrip_encode :
    5 ≤ (headerFields 5#4).ihl.toNat ∧ (loaded h20).len.toNat ≤ Config.bufCap ∧
      0 + (headerFields 5#4).ihl.toNat * 4 ≤ (loaded h20).len.toNat ∧
      WindowHolds (loaded h20) 0 20 (byteAt (encodeHeader (headerFields 5#4))) :=
  ⟨by decide, le_cap (by decide), by decide, by unfold WindowHolds; decide⟩

theorem witness_HeaderRoundTrip_longest :
    0 + (headerFields 15#4).ihl.toNat * 4 ≤ (loaded (h20.set 0 0x4f ++ List.replicate 40 0)).len.toNat ∧
      (loaded (h20.set 0 0x4f ++ List.replicate 40 0)).len.toNat ≤ Config.bufCap ∧
      WindowHolds (loaded (h20.set 0 0x4f ++ List.replicate 40 0)) 0 20 (byteAt (encodeHeader (headerFields 15#4))) :=
  ⟨by decide, le_cap (by decide), by unfold WindowHolds; decide⟩

theorem witness_BigEndianFields :
    2 + 2 ≤ [1#8, 2#8, 3#8, 4#8].length ∧ 0 + 4 ≤ [1#8, 2#8, 3#8, 4#8].length := by decide

theorem witness_MacStringShape : [0x0a#8, 0x1b#8, 0x2c#8, 0x3d#8, 0x4e#8, 0x5f#8].length = 6 ∧ 5 < 6 ∧ 4 < 5 := by decide

theorem witness_DottedDecimal : 255 < 256 ∧ 0x35#8 ∈ dec 255 ∧ (dec 0).head? = some 0x30#8 := by decide

theorem witness_RenderersInjective :
    5 < 6 ∧ hex2 0x0f#8 = hex2 0x0f#8 ∧ [1#8, 2#8, 3#8, 4#8, 5#8, 6#8].length = 6 ∧ [1#8, 2#8, 3#8, 4#8].length = 4 ∧
      macString [1#8, 2#8, 3#8, 4#8, 5#8, 6#8] = macString [1#8, 2#8, 3#8, 4#8, 5#8, 6#8] ∧
      dotted [1#8, 2#8, 3#8, 4#8] = dotted [1#8, 2#8, 3#8, 4#8] :=
  ⟨by decide, rfl, rfl, rfl, rfl, rfl⟩

/-- Every group valid, every string region holding the longest string it can. -/
def fullStrings : State :=
  { State.reset with
    status := ⟨.ok, true, true, true, true, false, 0#8⟩
    fmt := ⟨20#5, packStr20 (List.replicate 20 0x61#8)⟩
    eth := { EthGroup.zero with
      dstStr := packStr20 (List.replicate 20 0x61#8), srcStr := packStr20 (List.replicate 20 0x61#8) }
    ip := { IpGroup.zero with
      srcStr := packStr16 (List.replicate 16 0x61#8), dstStr := packStr16 (List.replicate 16 0x61#8) } }

theorem witness_StringRegionPacking :
    (List.replicate 20 0x61#8).length ≤ 20 ∧ 19 < 20 ∧ fullStrings.status.fmtValid = true ∧
      fullStrings.fmt.str = packStr20 (List.replicate 20 0x61#8) ∧ fullStrings.status.ethValid = true ∧
      fullStrings.eth.dstStr = packStr20 (List.replicate 20 0x61#8) ∧
      fullStrings.eth.srcStr = packStr20 (List.replicate 20 0x61#8) ∧
      (List.replicate 16 0x61#8).length ≤ 16 ∧ 15 < 16 ∧ fullStrings.status.ipValid = true ∧
      fullStrings.ip.srcStr = packStr16 (List.replicate 16 0x61#8) ∧
      fullStrings.ip.dstStr = packStr16 (List.replicate 16 0x61#8) :=
  ⟨by decide, by decide, rfl, rfl, rfl, rfl, rfl, by decide, by decide, rfl, rfl, rfl⟩

theorem witness_RegisterMapWords :
    fullStrings.status.ethValid = true ∧ fullStrings.status.ipValid = true ∧ fullStrings.status.rdValid = true ∧
      fullStrings.status.fmtValid = true :=
  ⟨rfl, rfl, rfl, rfl⟩

theorem witness_RegisterSpaceRules_outside :
    AccessSize.half ≠ .word ∧ 0x0FF % 4 ≠ 0 ∧ 0x100 ≤ 0x100 ∧
      (doing [.regRead .half 0x004] State.reset).pending = .regRead .half 0x004 :: [] ∧
      (doing [.regWrite .word 0x100 1#32] State.reset).pending = .regWrite .word 0x100 1#32 :: [] := by decide

theorem witness_RegisterSpaceRules_inside :
    0x028 ∈ reservedOffsets ∧ 0x0DC ∈ reservedOffsets ∧
      (doing [.regRead .word 0x0DC] State.reset).pending = .regRead .word 0x0DC :: [] ∧
      (doing [.regWrite .word 0x028 1#32] State.reset).pending = .regWrite .word 0x028 1#32 :: [] ∧
      (0x004, Reg.status) ∈ regMap ∧ (0x0FC, Reg.ipDstStr3) ∈ regMap ∧ Reg.status ≠ .cmd ∧ Reg.status ≠ .len ∧
      (doing [.regWrite .word 0x004 1#32] State.reset).pending = .regWrite .word 0x004 1#32 :: [] := by decide

theorem witness_ResetState : (0x070, Reg.rdValue) ∈ regMap ∧ Reg.rdValue.group ≠ none := by decide

theorem witness_CommandCompletesIffReadSetWritten :
    CommandReady (.frameDecode 0) (loaded f34) ∧
      exec (.ipv4Decode 0) (loadedLen (h20.take 19) 20) = .fault (.unwrittenFrameByte 19) :=
  ⟨by unfold CommandReady; decide, fault_of (by decide)⟩

theorem witness_EncodingExamples :
    (doing [cmdWrite 0x00000101#32] State.reset).pending = cmdWrite 0x00000101#32 :: [] := rfl

theorem witness_ResultReads_invalid :
    (0x070, Reg.rdValue) ∈ regMap ∧ (doing [.regRead .word 0x070] State.reset).pending = .regRead .word 0x070 :: [] ∧
      Reg.rdValue.group = some .rd ∧ groupValid State.reset.status .rd = false := by decide

theorem witness_ResultReads_valid :
    (0x070, Reg.rdValue) ∈ regMap ∧ (doing [.regRead .word 0x070] fullStrings).pending = .regRead .word 0x070 :: [] ∧
      (∀ g, Reg.rdValue.group = some g → groupValid fullStrings.status g = true) ∧
      (∀ g, Reg.status.group = some g → groupValid State.reset.status g = true) :=
  ⟨by decide, rfl, fun _ hg => Option.some.inj hg ▸ rfl, fun _ hg => by simp [Reg.group] at hg⟩

/-- LEN above BUF_CAP, which a capacity of 65535 does not allow. -/
theorem witness_LenRegister_over (h : Config.bufCap < 65535) : Config.bufCap < (loadedLen f34 65535).len.toNat := h

theorem witness_LenRegister :
    (doing [.regWrite .word 0x008 0xFFFFFFFF#32] State.reset).pending = .regWrite .word 0x008 0xFFFFFFFF#32 :: [] ∧
      (∃ t, step (doing [.regWrite .word 0x008 0xFFFFFFFF#32] State.reset) = .next t ∧
        decide (t.len ≠ State.reset.len) = true) ∧
      (∃ t, step (doing [.reset] (loaded f34)) = .next t ∧ decide (t.len ≠ (loaded f34).len) = true) :=
  ⟨rfl, next_of (by decide), next_of (by decide)⟩

theorem witness_FbufAccess_inside :
    73 < Config.bufCap ∧ (doing [.fbufWrite .byte 73 1#32] State.reset).pending = .fbufWrite .byte 73 1#32 :: [] ∧
      (doing [.fbufRead .byte 33] (loaded f34)).pending = .fbufRead .byte 33 :: [] ∧
      Memory.read (loaded f34).fbuf 33 = some 0x02#8 ∧ Memory.read (loaded f34).fbuf 34 = none :=
  ⟨Config.bufCap_ge, rfl, rfl, by decide, by decide⟩

theorem witness_FbufAccess_outside :
    Config.bufCap ≤ Config.bufCap ∧ AccessSize.word ≠ .byte ∧
      (doing [.fbufWrite .byte Config.bufCap 1#32] State.reset).pending = .fbufWrite .byte Config.bufCap 1#32 :: [] ∧
      (doing [.fbufRead .word 0] State.reset).pending = .fbufRead .word 0 :: [] :=
  ⟨Nat.le_refl _, by decide, rfl, rfl⟩

theorem witness_OnlyCommandsWriteResults_write :
    (0x00C, Reg.cap) ∈ regMap ∧ (0x070, Reg.rdValue) ∈ regMap ∧ Reg.rdValue.group ≠ none ∧
      (doing [.regWrite .word 0x070 1#32] fullStrings).pending = .regWrite .word 0x070 1#32 :: [] := by decide

theorem witness_OnlyCommandsWriteResults :
    (∃ t, step (doing [.fbufWrite .byte 0 1#32] (loaded f34)) = .next t ∧
      decide (t ≠ doing [.fbufWrite .byte 0 1#32] (loaded f34)) = true) ∧
      (∀ c rest, (doing [.fbufWrite .byte 0 1#32] (loaded f34)).pending ≠ cmdWrite c :: rest) ∧
      (∀ rest, (doing [.fbufWrite .byte 0 1#32] (loaded f34)).pending ≠ .reset :: rest) :=
  ⟨next_of (by decide), fun _ _ => by simp [doing, cmdWrite], fun _ => by simp [doing]⟩

theorem witness_OnlyHostWritesFbuf :
    (∃ t, step (doing [.fbufWrite .byte 73 1#32] State.reset) = .next t ∧
      decide (Memory.read t.fbuf 73 ≠ Memory.read State.reset.fbuf 73) = true) ∧
    (∃ t, step (doing [.reset] (loaded f34)) = .next t ∧
      decide (Memory.read t.fbuf 0 ≠ Memory.read (loaded f34).fbuf 0) = true) :=
  ⟨next_of (by decide), next_of (by decide)⟩

/-- The state after a read of an invalid result register. -/
def faulted (l : List HostAction) : State := { State.reset with faults := [.readOfInvalidResult 0x070], pending := l }

theorem witness_FaultRecordNeverCleared :
    ∃ t, step (faulted [.reset]) = .next t ∧ decide (t.faults ≠ []) = true :=
  next_of (by decide)

theorem witness_FaultedRunHasNoObservation :
    (faulted [.reset]).faults ≠ [] ∧
      Sys2Proof.core.run 1 (faulted [.reset]) = .next (resetBlock (faulted [])) := ⟨by decide, rfl⟩

/-- A run that does have an observation (R237): the loaded frame, decoded. -/
theorem test_observation_exists :
    ((after (step (doing [cmdWrite 0x00100010#32] (loaded f34)))).bind observe).map (fun o => (o.status, o.len, o.results)) =
      some (0x00100040#32, 34#32, [(0x070, 0x00000028#32)]) := by decide

theorem witness_ResetAction : (doing [.reset] (loaded f34)).pending = .reset :: [] := rfl

theorem witness_CommandAfterReset :
    State.reset.len = 0#16 ∧ (doing [cmdWrite 0xFFFF0002#32] State.reset).pending = cmdWrite 0xFFFF0002#32 :: [] ∧
      decode 0xFFFF0002#32 = some (.ipv4Decode 65535) ∧ decode 0x00000000#32 = none := by decide

theorem witness_IdleKeepsState : (loaded f34).pending = [] := rfl

/-- Two blocks, each with an action that changes it. -/
def twoBlocks : System := ⟨[doing [.reset] (loaded f34), doing [.regWrite .word 0x008 5#32] State.reset]⟩

theorem witness_BlocksAreIndependent :
    System.step 0 twoBlocks = .next ⟨[State.reset, doing [.regWrite .word 0x008 5#32] State.reset]⟩ ∧ 1 ≠ 0 ∧
      System.step 1 twoBlocks = .next ⟨[doing [.reset] (loaded f34), { State.reset with len := 5#16 }]⟩ :=
  ⟨rfl, by decide, rfl⟩

/-- F34 decoded by FRAME_DECODE, MAC_FMT about to be issued: every conditional clause on the ETH and IP groups is met. -/
def decoded : State := ((after (exec (.frameDecode 0) (doing [cmdWrite 0x00000020#32] (loaded f34)))).getD State.reset)

theorem witness_StepKeepsInvariant :
    Inv decoded ∧ (decoded.status.ethValid && decoded.status.ipValid && decoded.status.isIpv4) = true ∧
      ∃ t, step decoded = .next t ∧ t.status.fmtValid = true :=
  ⟨by constructor <;> decide, by decide, next_of (by decide)⟩

end Sys2Proof.Tests
end

section
/-! PROOFS. The statements of 00_scope.md: the offsets and lengths a successful decode stores are exact numbers (R10),
and a step refuses exactly the accesses outside the interface (R12, R209). -/

namespace Sys2Proof.Proofs

open Sys2Proof Sys2Proof.Machine Sys2Proof.Laws

/-! ### Stored offsets and lengths -/

/-- A number up to a 16-bit LEN is stored in a 16-bit register without wrapping (R10). -/
theorem toNat_ofNat_of_le_len {n : Nat} {len : Half} (h : n ≤ len.toNat) : (BitVec.ofNat 16 n).toNat = n :=
  by
  rw [BitVec.toNat_ofNat, Nat.mod_eq_of_lt (h.trans_lt len.isLt)]

/-- R101: the payload of a header inside the frame starts 14 bytes past the base and ends at LEN. -/
theorem ethGroupOf_payload {base : Nat} {len : Half} (h : List Byte) (hl : base + 14 ≤ len.toNat) :
    (ethGroupOf base (len.toNat - base) h).payloadOff.toNat = base + 14 ∧
      (ethGroupOf base (len.toNat - base) h).payloadOff.toNat +
        (ethGroupOf base (len.toNat - base) h).payloadLen.toNat = len.toNat := by
  have hoff : (ethGroupOf base (len.toNat - base) h).payloadOff.toNat = base + 14 := toNat_ofNat_of_le_len hl
  have hlen : (ethGroupOf base (len.toNat - base) h).payloadLen.toNat = len.toNat - base - 14 :=
    toNat_ofNat_of_le_len (len := len) (by omega)
  exact ⟨hoff, by omega⟩

/-- R121: HLEN is exactly IHL × 4, which is at most 60. -/
theorem ipGroupOf_hlen (base : Nat) (h : List Byte) : (ipGroupOf base h).hlen.toNat = hlenOf h := by
  have hi : (ihlOf h).toNat < 16 := (ihlOf h).isLt
  have hb : hlenOf h < 2 ^ 6 := by unfold hlenOf; omega
  exact (BitVec.toNat_ofNat _ _).trans (Nat.mod_eq_of_lt hb)

/-- R122, R128, R130: a header inside the frame has its options from its byte 20 on, and they end where its payload
starts, HLEN bytes past the base. -/
theorem ipGroupOf_ranges {base : Nat} {len : Half} {h : List Byte} (h20 : 20 ≤ hlenOf h)
    (hl : base + hlenOf h ≤ len.toNat) :
    (ipGroupOf base h).hlen.toNat = (ipGroupOf base h).ihl.toNat * 4 ∧
      (ipGroupOf base h).optOff.toNat = base + 20 ∧
      (ipGroupOf base h).optOff.toNat + (ipGroupOf base h).optLen.toNat = (ipGroupOf base h).payloadOff.toNat ∧
      (ipGroupOf base h).payloadOff.toNat = base + (ipGroupOf base h).hlen.toNat ∧
      (ipGroupOf base h).payloadOff.toNat ≤ len.toNat := by
  have hhlen := ipGroupOf_hlen base h
  have hoff : (ipGroupOf base h).optOff.toNat = base + 20 := toNat_ofNat_of_le_len (len := len) (by omega)
  have hopt : (ipGroupOf base h).optLen.toNat = hlenOf h - 20 := toNat_ofNat_of_le_len (len := len) (by omega)
  have hpay : (ipGroupOf base h).payloadOff.toNat = base + hlenOf h := toNat_ofNat_of_le_len hl
  exact ⟨hhlen, hoff, by omega, by omega, by omega⟩

/-- Settles O17, over the ends of a command: the ends that set ETH_VALID or IP_VALID passed the length checks. -/
theorem storedSumsDoNotWrap : Obligations.StoredSumsDoNotWrap := by
  intro i s t h
  cases exec_next_ends h with
  | ethOk base _ l _ hW => exact ⟨fun _ => ethGroupOf_payload l hW, by simp⟩
  | ipOk base _ l _ h20 hW => exact ⟨by simp, fun _ => ipGroupOf_ranges h20 hW⟩
  | frameOther base _ l _ hW _ => exact ⟨fun _ => ethGroupOf_payload l hW, by simp⟩
  | frameBad base _ l _ _ hW _ _ => exact ⟨fun _ => ethGroupOf_payload l hW, by simp⟩
  | frameOk base _ l l' _ _ h20 hW =>
    exact ⟨fun _ => ethGroupOf_payload l (by omega), fun _ => ipGroupOf_ranges h20 hW⟩
  | lenOver | short | ipBad | rd16 | rd32 | macOk | addrOk => simp

/-! ### Refusals of a step -/

theorem regAccessOk_eq_false_iff (size : AccessSize) (off : Nat) :
    regAccessOk size off = false ↔ size ≠ .word ∨ off % 4 ≠ 0 ∨ 0x100 ≤ off := by
  rw [← Bool.not_eq_true, regAccessOk_iff, not_and_or, not_and_or, Nat.not_lt]

theorem fbufAccessOk_eq_false_iff (size : AccessSize) (off : Nat) :
    fbufAccessOk size off = false ↔ size ≠ .byte ∨ Config.bufCap ≤ off := by
  rw [← Bool.not_eq_true, fbufAccessOk_iff, not_and_or, Nat.not_lt]

/-- A register write inside the interface is a step, the issue of a command included (R200, R26). -/
theorem hostWriteReg_completes (off : Nat) (v : Word) (s : State) : ∃ t, hostWriteReg off v s = .next t := by
  unfold hostWriteReg
  split
  · exact issueWord_completes v s
  · exact ⟨_, rfl⟩
  · exact ⟨_, rfl⟩

/-- An access outside the interface has no step (R209; log 20). -/
theorem perform_outside {a : HostAction} (h : outsideInterface a) (s : State) :
    perform a s = .refused .hostAccessOutOfInterface := by
  cases a with
  | regRead size off => simp [perform, (regAccessOk_eq_false_iff size off).2 h]
  | regWrite size off v => simp [perform, (regAccessOk_eq_false_iff size off).2 h]
  | fbufRead size off => simp [perform, (fbufAccessOk_eq_false_iff size off).2 h]
  | fbufWrite size off v => simp [perform, (fbufAccessOk_eq_false_iff size off).2 h]
  | reset => exact h.elim

/-- Every other action is a step, also where it records a fault (R12; log 3). -/
theorem perform_inside {a : HostAction} (h : ¬ outsideInterface a) (s : State) : ∃ t, perform a s = .next t := by
  cases a with
  | regRead size off =>
    have hok := Bool.of_not_eq_false (mt (regAccessOk_eq_false_iff size off).1 h)
    exact ⟨hostReadReg off s, by simp only [perform, hok]⟩
  | regWrite size off v =>
    have hok := Bool.of_not_eq_false (mt (regAccessOk_eq_false_iff size off).1 h)
    simpa only [perform, hok] using hostWriteReg_completes off v s
  | fbufRead size off =>
    have hok := Bool.of_not_eq_false (mt (fbufAccessOk_eq_false_iff size off).1 h)
    exact ⟨hostReadFbuf off s, by simp only [perform, hok]⟩
  | fbufWrite size off v =>
    have hok := Bool.of_not_eq_false (mt (fbufAccessOk_eq_false_iff size off).1 h)
    exact ⟨hostWriteFbuf off v s, by simp only [perform, hok]⟩
  | reset => exact ⟨_, rfl⟩

/-- Settles O42, over the host's next action: none, one outside the interface, or one inside it. -/
theorem stepRefusesOnlyOutsideInterface : Obligations.StepRefusesOnlyOutsideInterface := by
  intro s
  cases hp : s.pending with
  | nil => simp [step_nil hp]
  | cons a rest =>
    by_cases ho : outsideInterface a
    · simp [step_cons hp, perform_outside ho, ho, eq_comm]
    · obtain ⟨t, ht⟩ := perform_inside ho (s.withPending rest)
      simp [step_cons hp, ht, ho]

end Sys2Proof.Proofs
end

section
/-! PROOFS. The statements of 10_state.md on what a step keeps: the frame of a command, the result groups it leaves
valid (R25, R27, R201), the invariant (R25, R27, R31 to R33, R60, R121), LEN (R28), the fault record (R36, R209) and
the results (R37). -/

namespace Sys2Proof.Proofs

open Sys2Proof Sys2Proof.Machine Sys2Proof.Laws

/-! ### What a command leaves unchanged -/

/-- R85, R61(e): a command that completes writes no FBUF byte, not LEN, and no fault. -/
theorem exec_frame {i : Instr} {s t : State} (h : exec i s = .next t) :
    t.fbuf = s.fbuf ∧ t.len = s.len ∧ t.faults = s.faults := by
  obtain ⟨sh, hsh, -⟩ := exec_shape i s
  cases sh with
  | fault f => simp [hsh, Shape.outcome] at h
  | ends c w =>
    simp only [hsh, Shape.outcome, Host.Outcome.next.injEq] at h
    subst h
    simp

/-- A write to CMD writes no FBUF byte and not LEN, and records one fault at most (R62, R85). -/
theorem issueWord_frame {c : Word} {s t : State} (h : issueWord c s = .next t) :
    t.fbuf = s.fbuf ∧ t.len = s.len ∧ ∃ l, t.faults = s.faults ++ l ∧ l.length ≤ 1 := by
  obtain ⟨-, rfl⟩ | ⟨i, -, he⟩ | ⟨i, f, -, -, rfl⟩ := issueWord_next_cases h
  · exact ⟨rfl, rfl, [], by simp⟩
  · obtain ⟨hfbuf, hlen, hfaults⟩ := exec_frame he
    exact ⟨hfbuf, hlen, [], by simp [hfaults]⟩
  · exact ⟨rfl, rfl, [f], rfl, le_rfl⟩

/-! ### The result groups after a command -/

theorem isIpv4Type_iff (e : Half) : isIpv4Type e = true ↔ e = 0x0800#16 := by
  simp [isIpv4Type]

/-- R25: a group that is valid after a command is one the command writes. -/
theorem groupValid_mem_groupsOf {i : Instr} {s t : State} (h : exec i s = .next t) {g : Group}
    (hv : groupValid t.status g = true) : g ∈ groupsOf i := by
  cases g with
  | eth =>
    cases exec_next_ends h with
    | ethOk | frameOther | frameBad | frameOk => simp [groupsOf]
    | lenOver | short | ipBad | ipOk | rd16 | rd32 | macOk | addrOk => simp [groupValid] at hv
  | ip =>
    cases exec_next_ends h with
    | ipOk | frameOk => simp [groupsOf]
    | lenOver | short | ethOk | ipBad | frameOther | frameBad | rd16 | rd32 | macOk | addrOk =>
      simp [groupValid] at hv
  | rd =>
    cases exec_next_ends h with
    | rd16 | rd32 => simp [groupsOf]
    | lenOver | short | ethOk | ipBad | ipOk | frameOther | frameBad | frameOk | macOk | addrOk =>
      simp [groupValid] at hv
  | fmt =>
    cases exec_next_ends h with
    | macOk | addrOk => simp [groupsOf]
    | lenOver | short | ethOk | ipBad | ipOk | frameOther | frameBad | frameOk | rd16 | rd32 =>
      simp [groupValid] at hv

/-- R201: an OK of a command other than FRAME_DECODE leaves every group it writes valid. -/
theorem groupValid_of_ok {i : Instr} {s t : State} (h : exec i s = .next t) (hok : t.status.code = .ok)
    (hi : ∀ b, i ≠ .frameDecode b) {g : Group} (hg : g ∈ groupsOf i) : groupValid t.status g = true := by
  cases exec_next_ends h with
  | lenOver => simp [codeOf] at hok
  | short => cases i <;> simp [codeOf, shortError] at hok
  | ipBad _ _ e _ he => rcases he with rfl | rfl <;> simp [codeOf] at hok
  | frameOther base | frameBad base | frameOk base => exact absurd rfl (hi base)
  | ethOk | ipOk | rd16 | rd32 | macOk | addrOk =>
    obtain rfl := List.mem_singleton.1 hg
    rfl

/-- R85: the registers of a group a command does not leave valid are as before. -/
theorem exec_keeps_invalid_groups {i : Instr} {s t : State} (h : exec i s = .next t) :
    (t.status.ethValid = false → t.eth = s.eth) ∧ (t.status.ipValid = false → t.ip = s.ip) ∧
      (t.status.rdValid = false → t.rdValue = s.rdValue) ∧ (t.status.fmtValid = false → t.fmt = s.fmt) := by
  cases exec_next_ends h <;> simp

/-- R27: after a command IS_IPV4 is ETH_VALID with EtherType 0x0800. -/
theorem exec_isIpv4 {i : Instr} {s t : State} (h : exec i s = .next t) :
    t.status.isIpv4 = (t.status.ethValid && isIpv4Type t.eth.etherType) := by
  cases exec_next_ends h <;> simp

/-- Settles O20, from the ends of a command: which groups are valid, what the others hold, and IS_IPV4. -/
theorem groupsWrittenByTheirCommands : Obligations.GroupsWrittenByTheirCommands := by
  intro i s t h
  obtain ⟨heth, hip, hrd, hfmt⟩ := exec_keeps_invalid_groups h
  refine ⟨fun g => groupValid_mem_groupsOf h, heth, hip, hrd, hfmt,
    fun hok hi g => groupValid_of_ok h hok hi, ?_⟩
  rw [exec_isIpv4 h, Bool.and_eq_true, isIpv4Type_iff]

/-- R25, R172: a command that leaves the ETH group valid is an ETH_DECODE that ended OK, or a FRAME_DECODE. -/
theorem exec_ethFrom {i : Instr} {s t : State} (h : exec i s = .next t) (hv : t.status.ethValid = true) :
    (t.status.lastOpc = 0x01#8 ∧ t.status.code = .ok) ∨
      (t.status.lastOpc = 0x03#8 ∧
        (t.status.code = .ok ∨ t.status.code = .truncatedHeader ∨ t.status.code = .malformedHeader)) := by
  cases exec_next_ends h with
  | ethOk => exact .inl ⟨rfl, rfl⟩
  | frameOther | frameOk => exact .inr ⟨rfl, .inl rfl⟩
  | frameBad _ _ _ e _ _ _ he =>
    rcases he with rfl | rfl
    · exact .inr ⟨rfl, .inr (.inr rfl)⟩
    · exact .inr ⟨rfl, .inr (.inl rfl)⟩
  | lenOver | short | ipBad | ipOk | rd16 | rd32 | macOk | addrOk => simp at hv

/-- R25, R122, R172: a command that leaves the IP group valid ended OK, is an IPV4_DECODE or a FRAME_DECODE of an IPv4
frame, and wrote the group of a header of at least 20 bytes that lies inside the frame. -/
theorem exec_ipFrom {i : Instr} {s t : State} (h : exec i s = .next t) (hv : t.status.ipValid = true) :
    t.status.code = .ok ∧ (t.status.lastOpc = 0x02#8 ∨ (t.status.lastOpc = 0x03#8 ∧ t.status.isIpv4 = true)) ∧
      ∃ base l, t.ip = ipGroupOf base l ∧ 20 ≤ hlenOf l ∧ base + hlenOf l ≤ s.len.toNat := by
  cases exec_next_ends h with
  | ipOk base _ l _ h20 hW => exact ⟨rfl, .inl rfl, base, l, rfl, h20, hW⟩
  | frameOk base _ _ l _ ht h20 hW => exact ⟨rfl, .inr ⟨rfl, ht⟩, base + 14, l, rfl, h20, hW⟩
  | lenOver | short | ethOk | ipBad | frameOther | frameBad | rd16 | rd32 | macOk | addrOk => simp at hv

/-- R25, R32: a command that leaves the RD group valid is a reader that ended OK; a 16-bit value is zero-extended. -/
theorem exec_rdFrom {i : Instr} {s t : State} (h : exec i s = .next t) (hv : t.status.rdValid = true) :
    t.status.code = .ok ∧
      ((t.status.lastOpc = 0x10#8 ∧ t.rdValue.toNat < 2 ^ 16) ∨ t.status.lastOpc = 0x11#8) := by
  cases exec_next_ends h with
  | rd16 _ _ v =>
    have hlt : (v.setWidth 32).toNat < 2 ^ 16 := by
      rw [BitVec.toNat_setWidth]
      exact (Nat.mod_le _ _).trans_lt v.isLt
    exact ⟨rfl, .inl ⟨rfl, hlt⟩⟩
  | rd32 => exact ⟨rfl, .inr rfl⟩
  | lenOver | short | ethOk | ipBad | ipOk | frameOther | frameBad | frameOk | macOk | addrOk => simp at hv

/-! ### The lengths of the rendered strings -/

/-- R155: six pairs of digits and five colons. -/
theorem macString_length (m : List Byte) : (macString m).length = 17 := rfl

/-- R131: a number below 1000 takes one to three digits. -/
theorem dec_length (n : Nat) : 1 ≤ (dec n).length ∧ (dec n).length ≤ 3 := by
  unfold dec
  split
  · simp
  · split <;> simp

/-- R31, R131: four numerals and three dots are 7 to 15 characters. -/
theorem dotted_length (o : List Byte) : 7 ≤ (dotted o).length ∧ (dotted o).length ≤ 15 := by
  have h0 := dec_length (byteAt o 0).toNat
  have h1 := dec_length (byteAt o 1).toNat
  have h2 := dec_length (byteAt o 2).toNat
  have h3 := dec_length (byteAt o 3).toNat
  simp only [dotted, List.length_append, List.length_cons]
  omega

/-- A string length up to 15 is stored exactly in a register field of 4 bits or more (R31, R33). -/
theorem toNat_dotted_length {n : Nat} (hn : 4 ≤ n) (o : List Byte) :
    7 ≤ (BitVec.ofNat n (dotted o).length).toNat ∧ (BitVec.ofNat n (dotted o).length).toNat ≤ 15 := by
  have hlt : (dotted o).length < 2 ^ n :=
    (Nat.lt_succ_of_le (dotted_length o).2).trans_le (Nat.pow_le_pow_right Nat.two_pos hn)
  rw [BitVec.toNat_ofNat, Nat.mod_eq_of_lt hlt]
  exact dotted_length o

/-- R25, R33: a command that leaves the FMT group valid is a formatter that ended OK, its string 17 characters of
MAC_FMT or 7 to 15 of IPV4_ADDR_FMT. -/
theorem exec_fmtFrom {i : Instr} {s t : State} (h : exec i s = .next t) (hv : t.status.fmtValid = true) :
    t.status.code = .ok ∧
      ((t.status.lastOpc = 0x20#8 ∧ t.fmt.len.toNat = 17) ∨
        (t.status.lastOpc = 0x21#8 ∧ 7 ≤ t.fmt.len.toNat ∧ t.fmt.len.toNat ≤ 15)) := by
  cases exec_next_ends h with
  | macOk => exact ⟨rfl, .inl ⟨rfl, rfl⟩⟩
  | addrOk _ _ l => exact ⟨rfl, .inr ⟨rfl, toNat_dotted_length (by decide) l⟩⟩
  | lenOver | short | ethOk | ipBad | ipOk | frameOther | frameBad | frameOk | rd16 | rd32 => simp at hv

/-! ### The invariant -/

/-- R121, R128, R130: the lengths of a header of at least 20 bytes inside the frame. -/
theorem ipGroupOf_shape {base : Nat} {len : Half} {h : List Byte} (h20 : 20 ≤ hlenOf h)
    (hl : base + hlenOf h ≤ len.toNat) :
    5 ≤ (ipGroupOf base h).ihl.toNat ∧ (ipGroupOf base h).hlen.toNat = (ipGroupOf base h).ihl.toNat * 4 ∧
      (ipGroupOf base h).optLen.toNat + 20 = (ipGroupOf base h).hlen.toNat ∧
      (ipGroupOf base h).payloadOff.toNat = (ipGroupOf base h).optOff.toNat + (ipGroupOf base h).optLen.toNat := by
  obtain ⟨hhlen, hoff, hend, hpay, -⟩ := ipGroupOf_ranges h20 hl
  have hn := ipGroupOf_hlen base h
  omega

/-- A command that completes leaves the invariant: what it wrote meets it, and FBUF is as before. -/
theorem exec_inv {i : Instr} {s t : State} (hs : Inv s) (h : exec i s = .next t) : Inv t := by
  obtain ⟨hfbuf, -, -⟩ := exec_frame h
  exact
    { fbufWf := hfbuf ▸ hs.fbufWf
      fbufInRange := hfbuf ▸ hs.fbufInRange
      isIpv4 := exec_isIpv4 h
      ethFrom := exec_ethFrom h
      ipFrom := fun hv => by
        obtain ⟨hcode, hopc, -⟩ := exec_ipFrom h hv
        exact ⟨hcode, hopc⟩
      rdFrom := exec_rdFrom h
      fmtFrom := exec_fmtFrom h
      ipShape := fun hv => by
        obtain ⟨-, -, base, l, hip, h20, hl⟩ := exec_ipFrom h hv
        exact hip ▸ ipGroupOf_shape h20 hl
      ipStrings := fun hv => by
        obtain ⟨-, -, base, l, hip, -, -⟩ := exec_ipFrom h hv
        exact hip ▸ ⟨toNat_dotted_length (by decide) _, toNat_dotted_length (by decide) _⟩ }

/-- With every group invalid and IS_IPV4 clear, the invariant asks for FBUF's form and range alone. -/
theorem inv_of_no_group {s : State} (hwf : s.fbuf.wf = true) (hin : s.fbuf.inRange = true)
    (heth : s.status.ethValid = false) (hip : s.status.ipValid = false) (hrd : s.status.rdValid = false)
    (hfmt : s.status.fmtValid = false) (h4 : s.status.isIpv4 = false) : Inv s := by
  constructor <;> simp [hwf, hin, heth, hip, hrd, hfmt, h4]

/-- A write to CMD keeps the invariant: a COMMAND_ERROR and a fault leave no group valid (R84, R62). -/
theorem issueWord_inv {c : Word} {s t : State} (hs : Inv s) (h : issueWord c s = .next t) : Inv t := by
  obtain ⟨-, rfl⟩ | ⟨i, -, he⟩ | ⟨i, f, -, -, rfl⟩ := issueWord_next_cases h
  · exact inv_of_no_group hs.fbufWf hs.fbufInRange rfl rfl rfl rfl rfl
  · exact exec_inv hs he
  · exact inv_of_no_group hs.fbufWf hs.fbufInRange rfl rfl rfl rfl rfl

/-- The same STATUS and the same result registers (R37). -/
def SameResults (s t : State) : Prop :=
  t.status = s.status ∧ t.eth = s.eth ∧ t.ip = s.ip ∧ t.rdValue = s.rdValue ∧ t.fmt = s.fmt

/-- The invariant speaks of FBUF, STATUS and the result registers alone. -/
theorem inv_of_sameResults {s t : State} (hs : Inv s) (hr : SameResults s t) (hwf : t.fbuf.wf = true)
    (hin : t.fbuf.inRange = true) : Inv t := by
  obtain ⟨hstatus, heth, hip, hrd, hfmt⟩ := hr
  constructor <;> simp only [hstatus, heth, hip, hrd, hfmt, hwf, hin]
  exacts [hs.isIpv4, hs.ethFrom, hs.ipFrom, hs.rdFrom, hs.fmtFrom, hs.ipShape, hs.ipStrings]

/-- R37: a host action other than a write to CMD and a reset changes neither STATUS nor a result register. -/
theorem actionEnds_sameResults {a : HostAction} {s t : State} (h : ActionEnds a s t) (hc : ∀ c, a ≠ cmdWrite c)
    (hr : a ≠ .reset) : SameResults s t := by
  cases h with
  | issue c => exact absurd rfl (hc c)
  | reset => exact absurd rfl hr
  | readWord | readFault | writeLen | writeIgnored | fbufByte | fbufFault | fbufStore =>
    exact ⟨rfl, rfl, rfl, rfl, rfl⟩

/-- R60: a host action keeps FBUF in its canonical form and below BUF_CAP. -/
theorem actionEnds_fbuf {a : HostAction} {s t : State} (h : ActionEnds a s t) (hwf : s.fbuf.wf = true)
    (hin : s.fbuf.inRange = true) : t.fbuf.wf = true ∧ t.fbuf.inRange = true := by
  cases h with
  | issue _ _ _ hi =>
    obtain ⟨hfbuf, -, -⟩ := issueWord_frame hi
    exact ⟨hfbuf ▸ hwf, hfbuf ▸ hin⟩
  | fbufStore a v _ ha => exact ⟨wf_write hwf a _, inRange_write hin ha _⟩
  | reset => exact reset_fbuf_wf
  | readWord | readFault | writeLen | writeIgnored | fbufByte | fbufFault => exact ⟨hwf, hin⟩

/-- Every host action that is a step keeps the invariant. -/
theorem actionEnds_inv {a : HostAction} {s t : State} (hs : Inv s) (h : ActionEnds a s t) : Inv t := by
  obtain ⟨hwf, hin⟩ := actionEnds_fbuf h hs.fbufWf hs.fbufInRange
  cases h with
  | issue _ _ _ hi => exact issueWord_inv hs hi
  | reset => exact inv_of_no_group hwf hin rfl rfl rfl rfl rfl
  | readWord | readFault | writeLen | writeIgnored | fbufByte | fbufFault | fbufStore =>
    exact inv_of_sameResults hs ⟨rfl, rfl, rfl, rfl, rfl⟩ hwf hin

/-- Settles O50: no group is valid after reset and FBUF lists nothing. -/
theorem resetSatisfiesInvariant : Obligations.ResetSatisfiesInvariant := by
  obtain ⟨hwf, hin⟩ := reset_fbuf_wf
  exact inv_of_no_group hwf hin rfl rfl rfl rfl rfl

/-- Taking the host's next action off its list keeps the invariant. -/
theorem withPending_inv {s : State} (hs : Inv s) (l : List HostAction) : Inv (s.withPending l) :=
  inv_of_sameResults hs ⟨rfl, rfl, rfl, rfl, rfl⟩ hs.fbufWf hs.fbufInRange

/-- Settles O51, over what a step can be: idle, or the host's next action. -/
theorem stepKeepsInvariant : Obligations.StepKeepsInvariant := by
  intro s t hs h
  obtain ⟨-, rfl⟩ | ⟨a, rest, -, ha⟩ := step_next_cases h
  · exact hs
  · exact actionEnds_inv (withPending_inv hs rest) ha

end Sys2Proof.Proofs
end

section
/-! PROOFS. The statements of 10_state.md on the host's accesses to REG: the register map (R24, R27, R35), reserved and
read-only offsets (R23, R37), reads of invalid results (R36), LEN (R28), the fault record (R36, R209), the reset state
(R39). -/

namespace Sys2Proof.Proofs

open Sys2Proof Sys2Proof.Machine Sys2Proof.Laws

/-! ### Register reads -/

/-- A register without a group reads its word in every state (R24, R36). -/
theorem readReg_ungated {s : State} {off : Nat} {r : Reg} {v : Word} (hr : regAt off = some r) (hg : r.group = none)
    (hw : regWord s r = v) : readReg s off = .ok v :=
  hw ▸ readReg_word hr (readable_ungated hg)

/-- A result register of a valid group reads its word (R36). -/
theorem readReg_valid {s : State} {off : Nat} {r : Reg} {g : Group} {v : Word} (hr : regAt off = some r)
    (hg : r.group = some g) (hv : groupValid s.status g = true) (hw : regWord s r = v) : readReg s off = .ok v :=
  hw ▸ readReg_word hr ((readable_gated hg).trans hv)

/-- CODE is the low 4 bits of STATUS (R27). -/
theorem toWord_code (st : Status) : st.toWord.extractLsb' 0 4 = st.code.toBits := by
  simp (disch := decide) only [Status.toWord, BitVec.extractLsb'_append_eq_of_add_le]
  simp

/-- Settles O34: STATUS has no group, and its word is the concatenation of its fields. -/
theorem statusWordFields : Obligations.StatusWordFields := by
  intro s
  refine ⟨s.status.toWord, readReg_ungated rfl rfl rfl, ?_, ?_⟩
  · rw [toWord_code]
    cases s.status.code <;> rfl
  · and_intros <;>
      (simp (disch := decide) only [Status.toWord, BitVec.getLsbD_append, BitVec.getLsbD_ofBool,
        BitVec.extractLsb'_append_eq_of_le, BitVec.extractLsb'_append_eq_of_add_le]
       simp)

/-- Two 16-bit fields of a register word (R24). -/
theorem ofNat_halves (a b : Half) : BitVec.ofNat 32 (a.toNat * 2 ^ 16 + b.toNat) = a ++ b := by
  rw [← toNat_append_eq, BitVec.ofNat_toNat, BitVec.setWidth_eq]

/-- HLEN, IHL and VERSION at bits 16, 8 and 0 of IP_VER_IHL (R24). -/
theorem ofNat_verIhl (hlen : BitVec 6) (ihl version : BitVec 4) :
    BitVec.ofNat 32 (hlen.toNat * 2 ^ 16 + ihl.toNat * 2 ^ 8 + version.toNat) =
      0#10 ++ (hlen ++ (0#4 ++ (ihl ++ (0#4 ++ version)))) := by
  apply BitVec.eq_of_toNat_eq
  simp only [toNat_append_eq, BitVec.toNat_ofNat]
  omega

/-- The two string lengths at bits 8 and 0 of IP_STR_LEN (R24). -/
theorem ofNat_strLen (dstLen srcLen : BitVec 4) :
    BitVec.ofNat 32 (dstLen.toNat * 2 ^ 8 + srcLen.toNat) = 0#20 ++ (dstLen ++ (0#4 ++ srcLen)) := by
  apply BitVec.eq_of_toNat_eq
  simp only [toNat_append_eq, BitVec.toNat_ofNat]
  omega

/-- Settles O35, group by group: each offset is its register's, and the numbers are the fields put in place. -/
theorem registerMapWords : Obligations.RegisterMapWords := by
  intro s
  simp only [BitVec.ofNat_toNat, ofNat_halves, ofNat_verIhl, ofNat_strLen]
  refine ⟨readReg_ungated rfl rfl rfl, readReg_ungated rfl rfl rfl, readReg_ungated rfl rfl rfl,
    fun heth => ?_, fun hip => ?_, fun hrd => readReg_valid rfl rfl hrd rfl, fun hfmt => ?_⟩
  · and_intros <;> exact readReg_valid rfl rfl heth rfl
  · and_intros <;> exact readReg_valid rfl rfl hip rfl
  · and_intros <;> exact readReg_valid rfl rfl hfmt rfl

/-! ### String regions -/

/-- Byte j of word k of a packed string is character 4k + j, the first the most significant (R35). -/
theorem packWord_byte (cs : List Byte) (k : Nat) {j : Nat} (hj : j < 4) :
    (packWord cs k).extractLsb' (24 - 8 * j) 8 = byteAt cs (4 * k + j) := by
  have hword := be32_toNat cs (4 * k)
  have h0 := (byteAt cs (4 * k)).isLt
  have h1 := (byteAt cs (4 * k + 1)).isLt
  have h2 := (byteAt cs (4 * k + 2)).isLt
  have h3 := (byteAt cs (4 * k + 3)).isLt
  apply BitVec.eq_of_toNat_eq
  rw [show packWord cs k = be32 cs (4 * k) from rfl, BitVec.extractLsb'_toNat, Nat.shiftRight_eq_div_pow, hword]
  interval_cases j <;> simp only [Nat.reduceMul, Nat.reduceSub, Nat.add_zero] <;> omega

/-- A region at offset B whose n words read as a packed string reads as its characters (R35). -/
theorem region_char {s : State} {cs : List Byte} {B n : Nat}
    (hread : ∀ k, k < n → readReg s (B + 4 * k) = .ok (packWord cs k)) {i : Nat} (hi : i < 4 * n) :
    ∃ v, readReg s (B + 4 * (i / 4)) = .ok v ∧ v.extractLsb' (24 - 8 * (i % 4)) 8 = cs.getD i 0x00#8 := by
  refine ⟨_, hread (i / 4) (by omega), ?_⟩
  rw [packWord_byte cs (i / 4) (Nat.mod_lt i (by decide)), Nat.div_add_mod]
  rfl

/-- A region of five words holding a packed string. -/
theorem region20_char {s : State} {cs : List Byte} {B : Nat} {str : Str20} (hstr : str = packStr20 cs)
    (h0 : readReg s B = .ok str.w0) (h1 : readReg s (B + 4) = .ok str.w1) (h2 : readReg s (B + 8) = .ok str.w2)
    (h3 : readReg s (B + 12) = .ok str.w3) (h4 : readReg s (B + 16) = .ok str.w4) {i : Nat} (hi : i < 20) :
    ∃ v, readReg s (B + 4 * (i / 4)) = .ok v ∧ v.extractLsb' (24 - 8 * (i % 4)) 8 = cs.getD i 0x00#8 := by
  subst hstr
  refine region_char (n := 5) (fun k hk => ?_) hi
  interval_cases k
  exacts [h0, h1, h2, h3, h4]

/-- A region of four words holding a packed string. -/
theorem region16_char {s : State} {cs : List Byte} {B : Nat} {str : Str16} (hstr : str = packStr16 cs)
    (h0 : readReg s B = .ok str.w0) (h1 : readReg s (B + 4) = .ok str.w1) (h2 : readReg s (B + 8) = .ok str.w2)
    (h3 : readReg s (B + 12) = .ok str.w3) {i : Nat} (hi : i < 16) :
    ∃ v, readReg s (B + 4 * (i / 4)) = .ok v ∧ v.extractLsb' (24 - 8 * (i % 4)) 8 = cs.getD i 0x00#8 := by
  subst hstr
  refine region_char (n := 4) (fun k hk => ?_) hi
  interval_cases k
  exacts [h0, h1, h2, h3]

/-- Settles O33: each region's words stand in the register map, and a packed word holds four characters. -/
theorem stringRegionPacking : Obligations.StringRegionPacking := by
  intro s cs
  refine ⟨fun _ i hi => ⟨fun hv hstr => ?_, fun hv hstr => ?_, fun hv hstr => ?_⟩,
    fun _ i hi => ⟨fun hv hstr => ?_, fun hv hstr => ?_⟩⟩
  · refine region20_char hstr ?_ ?_ ?_ ?_ ?_ hi <;> exact readReg_valid rfl rfl hv rfl
  · refine region20_char hstr ?_ ?_ ?_ ?_ ?_ hi <;> exact readReg_valid rfl rfl hv rfl
  · refine region20_char hstr ?_ ?_ ?_ ?_ ?_ hi <;> exact readReg_valid rfl rfl hv rfl
  · refine region16_char hstr ?_ ?_ ?_ ?_ hi <;> exact readReg_valid rfl rfl hv rfl
  · refine region16_char hstr ?_ ?_ ?_ ?_ hi <;> exact readReg_valid rfl rfl hv rfl

/-! ### The host's register accesses -/

/-- A step whose action is a word read of an offset inside the interface (R23, R36). -/
theorem step_regRead {s : State} {rest : List HostAction} {off : Nat} (hok : regAccessOk .word off = true)
    (hp : s.pending = .regRead .word off :: rest) : step s = .next (hostReadReg off (s.withPending rest)) := by
  simp only [step_cons hp, perform, hok]

/-- A step whose action is a word write to an offset inside the interface (R23, R37). -/
theorem step_regWrite {s : State} {rest : List HostAction} {off : Nat} {v : Word} (hok : regAccessOk .word off = true)
    (hp : s.pending = .regWrite .word off v :: rest) : step s = hostWriteReg off v (s.withPending rest) := by
  simp only [step_cons hp, perform, hok]

/-- A read that gives a value returns it to the host (R36). -/
theorem hostReadReg_ok {s : State} {off : Nat} {v : Word} (h : readReg s off = .ok v) :
    hostReadReg off s = respond (.word v) s := by
  simp only [hostReadReg, h]

/-- A read that faults records the fault (R36). -/
theorem hostReadReg_fault {s : State} {off : Nat} {f : Fault} (h : readReg s off = .error f) :
    hostReadReg off s = recordFault f s := by
  simp only [hostReadReg, h]

/-- A write to an offset that is neither CMD's nor LEN's is ignored (R23(d), R37). -/
theorem hostWriteReg_ignored {off : Nat} (hcmd : regAt off ≠ some .cmd) (hlen : regAt off ≠ some .len) (v : Word)
    (s : State) : hostWriteReg off v s = .next s := by
  unfold hostWriteReg
  split
  · contradiction
  · contradiction
  · rfl

/-- A step that writes a register of the map other than CMD and LEN changes nothing (R37). -/
theorem step_regWrite_readOnly {s : State} {rest : List HostAction} {off : Nat} {r : Reg} {v : Word}
    (hm : (off, r) ∈ regMap) (hcmd : r ≠ .cmd) (hlen : r ≠ .len) (hp : s.pending = .regWrite .word off v :: rest) :
    step s = .next (s.withPending rest) := by
  have hat := regAt_of_mem hm
  rw [step_regWrite (regMap_inside _ hm) hp, hostWriteReg_ignored (by simp [hat, hcmd]) (by simp [hat, hlen])]

/-- The reserved offsets are inside the interface and hold no register (R23(d)). -/
theorem reservedOffsets_inside :
    ∀ off ∈ reservedOffsets, regAccessOk .word off = true ∧ regAt off = none := by decide

/-- Settles O36, over where the offset lies: outside the interface, reserved, or a register's. -/
theorem registerSpaceRules : Obligations.RegisterSpaceRules := by
  intro s rest size off v
  refine ⟨fun ho => ⟨fun hp => ?_, fun hp => ?_⟩, fun hres => ?_, fun r hm hcmd hlen hp => ?_⟩
  · rw [step_cons hp, perform_outside (a := .regRead size off) ho]
  · rw [step_cons hp, perform_outside (a := .regWrite size off v) ho]
  · obtain ⟨hok, hat⟩ := reservedOffsets_inside off hres
    refine ⟨fun hp => ?_, fun hp => ?_⟩
    · rw [step_regRead hok hp, hostReadReg_ok (readReg_reserved hat)]
      rfl
    · rw [step_regWrite hok hp, hostWriteReg_ignored (by simp [hat]) (by simp [hat])]
      rfl
  · exact step_regWrite_readOnly hm hcmd hlen hp

/-- Settles O37: the valid bit of the register's group decides between the word and the fault. -/
theorem resultReads : Obligations.ResultReads := by
  intro s rest off r hm hp
  have hat := regAt_of_mem hm
  rw [step_regRead (off := off) (regMap_inside _ hm) hp]
  refine ⟨fun g hg hv => ?_, fun hv => ?_⟩
  · rw [hostReadReg_fault (s := s.withPending rest) (readReg_invalid hat ((readable_gated hg).trans hv))]
    rfl
  · have hr : readable s.status r = true := by
      cases hg : r.group with
      | none => exact readable_ungated hg
      | some g => exact (readable_gated hg).trans (hv g hg)
    rw [hostReadReg_ok (s := s.withPending rest) (readReg_word hat hr)]
    rfl

/-- Settles O40: the writes by the register they name, the steps by what a host action can do. -/
theorem onlyCommandsWriteResults : Obligations.OnlyCommandsWriteResults := by
  refine ⟨fun s rest off r v hm hr hp => ?_, fun s t h hc hreset => ?_⟩
  · have hcmd : r ≠ .cmd := fun he => by simp [he, Reg.group] at hr
    have hlen : r ≠ .len := fun he => by simp [he, Reg.group] at hr
    exact step_regWrite_readOnly hm hcmd hlen hp
  · obtain ⟨-, rfl⟩ | ⟨a, rest, hp, ha⟩ := step_next_cases h
    · exact ⟨rfl, rfl, rfl, rfl, rfl⟩
    · have hcmd : ∀ c, a ≠ cmdWrite c := fun c he => hc c rest (he ▸ hp)
      have hres : a ≠ .reset := fun he => hreset rest (he ▸ hp)
      exact actionEnds_sameResults (s := s.withPending rest) ha hcmd hres

/-! ### LEN -/

/-- R28: a host action other than a write to LEN and a reset leaves LEN. -/
theorem actionEnds_len {a : HostAction} {s t : State} (h : ActionEnds a s t) (hne : t.len ≠ s.len) :
    (∃ v, a = .regWrite .word 0x008 v) ∨ a = .reset := by
  cases h with
  | writeLen v => exact .inl ⟨v, rfl⟩
  | reset => exact .inr rfl
  | issue _ _ _ hi =>
    obtain ⟨-, hlen, -⟩ := issueWord_frame hi
    exact absurd hlen hne
  | readWord | readFault | writeIgnored | fbufByte | fbufFault | fbufStore => exact absurd rfl hne

/-- The low 16 bits of a word, as LEN reads them (R28). -/
theorem setWidth_low16 (v : Word) : (v.extractLsb' 0 16).setWidth 32 = BitVec.ofNat 32 (v.toNat % 2 ^ 16) := by
  apply BitVec.eq_of_toNat_eq
  simp

/-- Settles O38: the write by the register map, the changes by what a host action can do, the COMMAND_ERROR by the check
every command begins with. -/
theorem lenRegister : Obligations.LenRegister := by
  refine ⟨fun s rest v hp => ?_, fun s t h hne => ?_, fun i s hc => ?_⟩
  · refine ⟨{ s with pending := rest, len := v.extractLsb' 0 16 }, ?_, rfl, ?_⟩
    · rw [step_regWrite rfl hp, ← BitVec.setWidth_eq_extractLsb' (by decide)]
      rfl
    · exact (readReg_word (r := .len) rfl rfl).trans (congrArg _ (setWidth_low16 v))
  · obtain ⟨-, rfl⟩ | ⟨a, rest, hp, ha⟩ := step_next_cases h
    · exact absurd rfl hne
    · obtain ⟨v, rfl⟩ | rfl := actionEnds_len ha hne
      · exact ⟨rest, .inl ⟨v, hp⟩⟩
      · exact ⟨rest, .inr hp⟩
  · exact ⟨_, (exec_eq_runCommand i s).trans (runCommand_over hc), rfl, rfl⟩

/-! ### The fault record -/

/-- R36, R209: a host action appends one fault at most. -/
theorem actionEnds_faults {a : HostAction} {s t : State} (h : ActionEnds a s t) :
    ∃ l, t.faults = s.faults ++ l ∧ l.length ≤ 1 := by
  cases h with
  | issue _ _ _ hi =>
    obtain ⟨-, -, hfaults⟩ := issueWord_frame hi
    exact hfaults
  | readFault _ _ _ f => exact ⟨[f], rfl, le_rfl⟩
  | fbufFault a => exact ⟨[.unwrittenFrameByte a], rfl, le_rfl⟩
  | readWord | writeLen | writeIgnored | fbufByte | fbufStore | reset => exact ⟨[], by simp⟩

/-- Settles O43, over what a step can be: idle, or the host's next action. -/
theorem faultRecordNeverCleared : Obligations.FaultRecordNeverCleared := by
  intro s t h
  obtain ⟨-, rfl⟩ | ⟨a, rest, -, ha⟩ := step_next_cases h
  · exact ⟨[], by simp⟩
  · exact actionEnds_faults (s := s.withPending rest) ha

/-- A step keeps a recorded fault in the record (R36). -/
theorem step_faults_ne_nil {s t : State} (hf : s.faults ≠ []) (h : step s = .next t) : t.faults ≠ [] := by
  obtain ⟨l, hl, -⟩ := faultRecordNeverCleared s t h
  simp [hl, hf]

/-- A run of k + 1 steps that ends in a state took a first step and then k. -/
theorem core_run_succ_next {M : Host.Core} {k : Nat} {s t : M.State} (h : M.run (k + 1) s = .next t) :
    ∃ u, M.step s = .next u ∧ M.run k u = .next t := by
  unfold Host.Core.run at h
  split at h
  · exact ⟨_, ‹_›, h⟩
  · cases h
  · cases h

/-- A run keeps a recorded fault in the record (R36). -/
theorem run_faults_ne_nil {k : Nat} {s t : State} (hf : s.faults ≠ []) (h : Sys2Proof.core.run k s = .next t) :
    t.faults ≠ [] := by
  induction k generalizing s with
  | zero => exact Host.Outcome.next.inj h ▸ hf
  | succ k ih =>
    obtain ⟨u, hu, hrun⟩ := core_run_succ_next h
    exact ih (step_faults_ne_nil hf hu) hrun

/-- A state with a fault recorded has no observation (R237). -/
theorem observe_of_faults {s : State} (hf : s.faults ≠ []) : observe s = none := by
  unfold observe
  split
  · contradiction
  · rfl

/-- Settles O44, by induction on the number of steps: the record keeps its fault. -/
theorem faultedRunHasNoObservation : Obligations.FaultedRunHasNoObservation :=
  fun _ _ _ hf h => observe_of_faults (run_faults_ne_nil hf h)

/-! ### The reset state -/

/-- After reset no result register is readable (R39). -/
theorem readable_reset {r : Reg} (h : r.group ≠ none) : readable Status.reset r = false := by
  obtain ⟨g, hg⟩ := Option.ne_none_iff_exists'.1 h
  rw [readable_gated hg]
  cases g <;> rfl

/-- Settles O45: the control registers by the map, the result registers by their cleared valid bits. -/
theorem resetState : Obligations.ResetState := by
  refine ⟨readReg_ungated rfl rfl rfl, readReg_ungated rfl rfl rfl, readReg_ungated rfl rfl rfl,
    readReg_ungated rfl rfl rfl, fun off r hm hg => ?_, fun _ => rfl, rfl, fun c rest => (List.cons_ne_nil _ _).symm⟩
  exact readReg_invalid (regAt_of_mem hm) (readable_reset hg)

end Sys2Proof.Proofs
end

section
/-! PROOFS. The statements of 20_memory.md: the bytes a command reads and when it completes (R62, R63, R65, R68, R208,
R232), byte order (R64, R74), and the host's accesses to FBUF (R60, R61, R209, R233). -/

namespace Sys2Proof.Proofs

open Sys2Proof Sys2Proof.Machine Sys2Proof.Laws

/-! ### A command as a read followed by a decision -/

/-- What each operation makes of the bytes of its first read, in a window of length W (R101, R122, R132, R151 to R153,
R171). -/
def afterRead : Instr → Nat → State → List Byte → OpResult
  | .ethDecode b, W, s, h => .ok (writeEth (ethGroupOf b W h) s)
  | .ipv4Decode b, W, s, h =>
    if hlenOf h < 20 then .raised .malformedHeader s
    else if W < hlenOf h then .raised .truncatedHeader s
    else .ok (writeIp (ipGroupOf b h) s)
  | .frameDecode b, W, s, h =>
    match isIpv4Type (be16 h 12) with
    | true => ipv4DecodeOp (b + 14) (W - 14) (writeEth (ethGroupOf b W h) s)
    | false => .ok (writeEth (ethGroupOf b W h) s)
  | .rdU16Be _, _, s, h => .ok (writeRd ((be16 h 0).setWidth 32) s)
  | .rdU32Be _, _, s, h => .ok (writeRd (be32 h 0) s)
  | .macFmt _, _, s, h => .ok (writeFmt (macString h) s)
  | .ipv4AddrFmt _, _, s, h => .ok (writeFmt (dotted h) s)

/-- FRAME_DECODE goes on after the Ethernet step's read of 14 bytes (R171). -/
theorem frameDecodeOp_eq_withBytes (b W : Nat) (s : State) :
    frameDecodeOp b W s = withBytes 14 .truncatedFrame b W s (afterRead (.frameDecode b) W s) := by
  unfold frameDecodeOp ethDecodeOp
  rcases withBytes_cases 14 W b .truncatedFrame s fun h => .ok (writeEth (ethGroupOf b W h) s) with
    ⟨hW, h⟩ | ⟨j, hW, hj, hu, hlow, h⟩ | ⟨w, hW, hw, h⟩ <;> rw [h]
  · rw [withBytes_short hW]
  · rw [withBytes_unwritten hW hj hu hlow]
  · rw [withBytes_written hW hw]
    rfl

/-- Every operation is its first read and a decision on the bytes read. -/
theorem opOf_eq_withBytes (i : Instr) (W : Nat) (s : State) :
    opOf i i.base W s = withBytes (firstRead i) (shortError i) i.base W s (afterRead i W s) := by
  cases i with
  | frameDecode b => exact frameDecodeOp_eq_withBytes b W s
  | ethDecode | ipv4Decode | rdU16Be | rdU32Be | macFmt | ipv4AddrFmt => rfl

theorem firstRead_pos (i : Instr) : 0 < firstRead i := by
  cases i <;> exact Nat.succ_pos _

/-- LEN is within BUF_CAP and the window holds the command's first read: only then does it read FBUF (R65, R84). -/
def ReadsFrame (i : Instr) (s : State) : Prop :=
  s.len.toNat ≤ Config.bufCap ∧ i.base + firstRead i ≤ s.len.toNat

theorem exec_over (i : Instr) {s : State} (hc : Config.bufCap < s.len.toNat) :
    exec i s = .next (takeError .commandError (beginCommand i.opcode s)) :=
  (exec_eq_runCommand i s).trans (runCommand_over hc)

theorem exec_short {i : Instr} {s : State} (hc : s.len.toNat ≤ Config.bufCap)
    (hl : s.len.toNat < i.base + firstRead i) :
    exec i s = .next (takeError (shortError i) (beginCommand i.opcode s)) :=
  (exec_eq_runCommand i s).trans (run_short (opOf_eq_withBytes i) hc hl (firstRead_pos i))

theorem exec_unwritten {i : Instr} {s : State} {a : Nat} (hf : ReadsFrame i s)
    (ha : FirstUnwritten s i.base (firstRead i) a) : exec i s = .fault (.unwrittenFrameByte a) := by
  obtain ⟨hc, hl⟩ := hf
  exact (exec_eq_runCommand i s).trans (run_unwritten (opOf_eq_withBytes i) hc hl ha)

theorem exec_written {i : Instr} {s : State} {w : Nat → Byte} (hf : ReadsFrame i s)
    (hw : WindowHolds s i.base (firstRead i) w) :
    exec i s = endOp (afterRead i (s.len.toNat - i.base) (beginCommand i.opcode s)
      ((List.range (firstRead i)).map w)) := by
  obtain ⟨hc, hl⟩ := hf
  exact (exec_eq_runCommand i s).trans (run_written (opOf_eq_withBytes i) hc hl (firstRead_pos i) hw)

/-- A region of FBUF is written throughout, or has a lowest unwritten byte (R62). -/
theorem window_cases (s : State) (base n : Nat) :
    (∃ w, WindowHolds s base n w) ∨ ∃ a, FirstUnwritten s base n a := by
  rcases memRead_cases s.fbuf base n with ⟨w, hw, -⟩ | ⟨k, hk, hu, hlow, -⟩
  · exact .inl ⟨w, hw⟩
  · refine .inr ⟨base + k, by omega, by omega, hu, fun b hb hlt => ?_⟩
    obtain ⟨j, rfl⟩ := Nat.exists_eq_add_of_le hb
    exact hlow j (by omega)

/-- The ways a command goes: COMMAND_ERROR, the short window's error, the fault of the lowest unwritten byte, or the
decision on the bytes read. -/
theorem exec_cases (i : Instr) (s : State) :
    (Config.bufCap < s.len.toNat ∧ exec i s = .next (takeError .commandError (beginCommand i.opcode s))) ∨
    (s.len.toNat ≤ Config.bufCap ∧ s.len.toNat < i.base + firstRead i ∧
      exec i s = .next (takeError (shortError i) (beginCommand i.opcode s))) ∨
    (ReadsFrame i s ∧ ∃ a, FirstUnwritten s i.base (firstRead i) a ∧ exec i s = .fault (.unwrittenFrameByte a)) ∨
    (ReadsFrame i s ∧ ∃ w, WindowHolds s i.base (firstRead i) w ∧
      exec i s = endOp (afterRead i (s.len.toNat - i.base) (beginCommand i.opcode s)
        ((List.range (firstRead i)).map w))) := by
  by_cases hc : Config.bufCap < s.len.toNat
  · exact .inl ⟨hc, exec_over i hc⟩
  rw [Nat.not_lt] at hc
  by_cases hl : s.len.toNat < i.base + firstRead i
  · exact .inr (.inl ⟨hc, hl, exec_short hc hl⟩)
  have hf : ReadsFrame i s := ⟨hc, Nat.not_lt.1 hl⟩
  obtain ⟨w, hw⟩ | ⟨a, ha⟩ := window_cases s i.base (firstRead i)
  · exact .inr (.inr (.inr ⟨hf, w, hw, exec_written hf hw⟩))
  · exact .inr (.inr (.inl ⟨hf, a, ha, exec_unwritten hf ha⟩))

/-- An error taken before a result is written leaves no group valid (R201). -/
theorem groupValid_takeError_beginCommand (e : ErrorKind) (opc : Byte) (s : State) (g : Group) :
    groupValid (takeError e (beginCommand opc s)).status g = false := by
  cases g <;> rfl

/-- A command that leaves a group valid read its bytes, all written, and decided on them (R25, R62). -/
theorem exec_read_of_groupValid {i : Instr} {s t : State} {g : Group} (h : exec i s = .next t)
    (hv : groupValid t.status g = true) :
    ReadsFrame i s ∧ ∃ w, WindowHolds s i.base (firstRead i) w ∧
      endOp (afterRead i (s.len.toNat - i.base) (beginCommand i.opcode s) ((List.range (firstRead i)).map w)) =
        .next t := by
  obtain ⟨-, he⟩ | ⟨-, -, he⟩ | ⟨-, a, -, he⟩ | ⟨hf, w, hw, he⟩ := exec_cases i s <;> rw [he] at h
  · obtain rfl := Host.Outcome.next.inj h
    simp [groupValid_takeError_beginCommand] at hv
  · obtain rfl := Host.Outcome.next.inj h
    simp [groupValid_takeError_beginCommand] at hv
  · cases h
  · exact ⟨hf, w, hw, h⟩

/-! ### Read sets -/

theorem readSet_over (i : Instr) {s : State} (hc : Config.bufCap < s.len.toNat) : readSet i s = [] := by
  simp [readSet, hc]

theorem readSet_short {i : Instr} {s : State} (hl : s.len.toNat < i.base + firstRead i) : readSet i s = [] := by
  have hpos := firstRead_pos i
  have hW : windowLen i.base s < firstRead i := by rw [windowLen_eq]; omega
  simp [readSet, hW]

theorem readSet_of_readsFrame {i : Instr} {s : State} (hf : ReadsFrame i s) :
    readSet i s = List.range' i.base (firstRead i) ++ secondRead i s := by
  obtain ⟨hc, hl⟩ := hf
  have hW : ¬ windowLen i.base s < firstRead i := by rw [windowLen_eq]; omega
  rw [readSet, if_neg (Nat.not_lt.2 hc), if_neg hW]

/-- FRAME_DECODE reads a second part when the 14 bytes carry EtherType 0x0800 and 20 payload bytes follow (R65). -/
theorem secondRead_frame {b : Nat} {s : State} {w : Nat → Byte} (hw : WindowHolds s b 14 w) :
    secondRead (.frameDecode b) s =
      match isIpv4Type (be16 ((List.range 14).map w) 12) with
      | true => if 20 ≤ s.len.toNat - b - 14 then List.range' (b + 14) 20 else []
      | false => [] := by
  have hlen : 34 ≤ windowLen b s ↔ 20 ≤ s.len.toNat - b - 14 := by rw [windowLen_eq]; omega
  simp only [secondRead, memRead_eq_ok hw]
  cases isIpv4Type (be16 ((List.range 14).map w) 12) <;> simp [hlen]

theorem secondRead_of_ne_frame {i : Instr} (hi : ∀ b, i ≠ .frameDecode b) (s : State) : secondRead i s = [] := by
  cases i with
  | frameDecode b => exact absurd rfl (hi b)
  | ethDecode | ipv4Decode | rdU16Be | rdU32Be | macFmt | ipv4AddrFmt => rfl

/-- The second part of a read set lies past the first (R65). -/
theorem le_of_mem_secondRead {i : Instr} {s : State} {a : Nat} (ha : a ∈ secondRead i s) :
    i.base + firstRead i ≤ a := by
  cases i with
  | frameDecode b =>
    simp only [secondRead] at ha
    split at ha
    · split at ha
      · exact (List.mem_range'_1.1 ha).1
      · cases ha
    · cases ha
  | ethDecode | ipv4Decode | rdU16Be | rdU32Be | macFmt | ipv4AddrFmt => cases ha

/-! ### Completion and faults -/

/-- An outcome that read the offsets l of a memory: it completed and all are written, or it faulted at the lowest
unwritten one (R62). -/
inductive OutcomeOfRead (m : Memory) (l : List Nat) : Host.Outcome State Fault Refusal → Prop where
  | completes (t : State) (hw : ∀ a ∈ l, (Memory.read m a).isSome = true) : OutcomeOfRead m l (.next t)
  | faults (a : Nat) (ha : a ∈ l) (hu : Memory.read m a = none)
      (hlow : ∀ b ∈ l, b < a → Memory.read m b ≠ none) : OutcomeOfRead m l (.fault (.unwrittenFrameByte a))

theorem isSome_of_windowHolds {s : State} {base n a : Nat} {w : Nat → Byte} (hw : WindowHolds s base n w)
    (ha : a ∈ List.range' base n) : (Memory.read s.fbuf a).isSome = true := by
  obtain ⟨hle, hlt⟩ := List.mem_range'_1.1 ha
  obtain ⟨k, rfl⟩ := Nat.exists_eq_add_of_le hle
  rw [hw k (by omega)]
  rfl

/-- A fault in the first part of a read set is at its lowest unwritten byte, whatever is read after it. -/
theorem OutcomeOfRead.of_firstUnwritten {s : State} {base n a : Nat} {l : List Nat} (ha : FirstUnwritten s base n a)
    (hl : ∀ b ∈ l, base + n ≤ b) :
    OutcomeOfRead s.fbuf (List.range' base n ++ l) (.fault (.unwrittenFrameByte a)) := by
  obtain ⟨hle, hlt, hu, hlow⟩ := ha
  refine .faults a (List.mem_append_left _ (List.mem_range'_1.2 ⟨hle, hlt⟩)) hu fun b hb hba => ?_
  rcases List.mem_append.1 hb with hb | hb
  · exact hlow b (List.mem_range'_1.1 hb).1 hba
  · have := hl b hb
    omega

/-- A written first part adds nothing to the outcome of the second. -/
theorem OutcomeOfRead.of_windowHolds {s : State} {base n : Nat} {w : Nat → Byte} {l : List Nat}
    {o : Host.Outcome State Fault Refusal} (hw : WindowHolds s base n w) (ho : OutcomeOfRead s.fbuf l o) :
    OutcomeOfRead s.fbuf (List.range' base n ++ l) o := by
  cases ho with
  | completes t hl => exact .completes t fun a ha => (List.mem_append.1 ha).elim (isSome_of_windowHolds hw) (hl a)
  | faults a ha hu hlow =>
    refine .faults a (List.mem_append_right _ ha) hu fun b hb hba => ?_
    rcases List.mem_append.1 hb with hb | hb
    · exact Option.isSome_iff_ne_none.1 (isSome_of_windowHolds hw hb)
    · exact hlow b hb hba

/-- Once its bytes are read, a command other than FRAME_DECODE completes (R200). -/
theorem endOp_afterRead_completes {i : Instr} (hi : ∀ b, i ≠ .frameDecode b) (W : Nat) (s : State) (h : List Byte) :
    ∃ t, endOp (afterRead i W s h) = .next t := by
  cases i with
  | frameDecode b => exact absurd rfl (hi b)
  | ipv4Decode b =>
    simp only [afterRead]
    split
    · exact ⟨_, rfl⟩
    · split <;> exact ⟨_, rfl⟩
  | ethDecode | rdU16Be | rdU32Be | macFmt | ipv4AddrFmt => exact ⟨_, rfl⟩

theorem withBytes_firstUnwritten {need W base a : Nat} {e : ErrorKind} {s : State} {k : List Byte → OpResult}
    (h : need ≤ W) (ha : FirstUnwritten s base need a) :
    withBytes need e base W s k = .fault (.unwrittenFrameByte a) := by
  obtain ⟨hle, hlt, hu, hlow⟩ := ha
  obtain ⟨j, rfl⟩ := Nat.exists_eq_add_of_le hle
  exact withBytes_unwritten h (by omega) hu fun l hl => hlow _ (by omega) (by omega)

/-- The IPv4 step of FRAME_DECODE reads its 20 bytes when the window holds them, else nothing (R65, R171). -/
theorem endOp_ipv4DecodeOp_outcomeOfRead (base W : Nat) (s : State) :
    OutcomeOfRead s.fbuf (if 20 ≤ W then List.range' base 20 else []) (endOp (ipv4DecodeOp base W s)) := by
  change OutcomeOfRead _ _ (endOp (withBytes 20 .truncatedHeader base W s (afterRead (.ipv4Decode base) W s)))
  by_cases hW : 20 ≤ W
  · rw [if_pos hW, ← List.append_nil (List.range' base 20)]
    obtain ⟨w, hw⟩ | ⟨a, ha⟩ := window_cases s base 20
    · obtain ⟨t, ht⟩ := endOp_afterRead_completes (i := .ipv4Decode base) (by simp) W s ((List.range 20).map w)
      rw [withBytes_written hW hw, ht]
      exact .of_windowHolds hw (.completes t (by simp))
    · rw [withBytes_firstUnwritten hW ha]
      exact .of_firstUnwritten ha (by simp)
  · rw [if_neg hW, withBytes_short (Nat.not_le.1 hW)]
    exact .completes _ (by simp)

/-- What a command does once its first bytes are read has the outcome of its second read (R65). -/
theorem endOp_afterRead_outcomeOfRead {i : Instr} {s : State} {w : Nat → Byte}
    (hw : WindowHolds s i.base (firstRead i) w) :
    OutcomeOfRead s.fbuf (secondRead i s) (endOp (afterRead i (s.len.toNat - i.base) (beginCommand i.opcode s)
      ((List.range (firstRead i)).map w))) := by
  by_cases hi : ∀ b, i ≠ .frameDecode b
  · obtain ⟨t, ht⟩ := endOp_afterRead_completes hi (s.len.toNat - i.base) (beginCommand i.opcode s)
      ((List.range (firstRead i)).map w)
    rw [ht, secondRead_of_ne_frame hi]
    exact .completes t (by simp)
  · obtain ⟨b, rfl⟩ := not_forall_not.1 hi
    rw [secondRead_frame (b := b) hw]
    simp only [afterRead, firstRead]
    cases isIpv4Type (be16 ((List.range 14).map w) 12) with
    | true =>
      exact endOp_ipv4DecodeOp_outcomeOfRead (b + 14) (s.len.toNat - b - 14) (writeEth _ (beginCommand 0x03#8 s))
    | false => exact .completes _ (by simp)

/-- A command has the outcome of its read set (R62, R65). -/
theorem exec_outcomeOfRead (i : Instr) (s : State) : OutcomeOfRead s.fbuf (readSet i s) (exec i s) := by
  obtain ⟨hc, he⟩ | ⟨-, hl, he⟩ | ⟨hf, a, ha, he⟩ | ⟨hf, w, hw, he⟩ := exec_cases i s <;> rw [he]
  · exact .completes _ (by simp [readSet_over i hc])
  · exact .completes _ (by simp [readSet_short hl])
  · rw [readSet_of_readsFrame hf]
    exact .of_firstUnwritten ha fun b => le_of_mem_secondRead
  · rw [readSet_of_readsFrame hf]
    exact .of_windowHolds hw (endOp_afterRead_outcomeOfRead hw)

/-- Settles O22, from the outcome of the read set. -/
theorem commandCompletesIffReadSetWritten : Obligations.CommandCompletesIffReadSetWritten := by
  intro i s
  refine ⟨?_, fun f hf => ?_, exec_ne_refused i s⟩
  · have ho := exec_outcomeOfRead i s
    generalize exec i s = o at ho
    cases ho with
    | completes t hw => exact ⟨fun _ => hw, fun _ => ⟨t, rfl⟩⟩
    | faults a ha hu =>
      refine ⟨fun ⟨_, ht⟩ => (nomatch ht), fun hready => ?_⟩
      simpa [hu] using hready a ha
  · have ho := hf ▸ exec_outcomeOfRead i s
    cases ho with
    | faults a ha hu hlow => exact ⟨a, rfl, ha, hu, hlow⟩

/-! ### What a command depends on -/

/-- Two states hold the same registers of a group. -/
def SameGroup (s t : State) : Group → Prop
  | .eth => t.eth = s.eth
  | .ip => t.ip = s.ip
  | .rd => t.rdValue = s.rdValue
  | .fmt => t.fmt = s.fmt

/-- A result register's word is fixed by its group (R24, R25). -/
theorem regWord_of_sameGroup {s t : State} {r : Reg} {g : Group} (hg : r.group = some g) (h : SameGroup s t g) :
    regWord t r = regWord s r := by
  cases g with
  | eth => cases r <;> cases hg <;> simp only [regWord, show t.eth = s.eth from h]
  | ip => cases r <;> cases hg <;> simp only [regWord, show t.ip = s.ip from h]
  | rd =>
    have hr : r = .rdValue := by cases r <;> cases hg; rfl
    exact hr ▸ h
  | fmt => cases r <;> cases hg <;> simp only [regWord, show t.fmt = s.fmt from h]

/-- What a run shows of the result registers is fixed by STATUS and the valid groups (R36, R237). -/
theorem visibleResults_congr {s t : State} (hst : t.status = s.status)
    (hg : ∀ g, groupValid s.status g = true → SameGroup s t g) : visibleResults t = visibleResults s := by
  refine List.filterMap_congr fun p _ => ?_
  rw [hst]
  cases hgr : p.2.group with
  | none => simp
  | some g =>
    rw [readable_gated hgr]
    cases hv : groupValid s.status g with
    | false => simp
    | true => simp [regWord_of_sameGroup hgr (hg g hv)]

/-- The same writes done to two issued commands leave the same contents in every group that is valid. -/
theorem apply_sameGroup (w : Writes) (c : Code) (opc : Byte) (s s' : State) {g : Group}
    (hv : groupValid (endCommand c (w.apply (beginCommand opc s))).status g = true) :
    SameGroup (endCommand c (w.apply (beginCommand opc s))) (endCommand c (w.apply (beginCommand opc s'))) g := by
  cases g with
  | eth =>
    cases w with
    | eth | ethIp => rfl
    | none | ip | rd | fmt => cases hv
  | ip =>
    cases w with
    | ip | ethIp => rfl
    | none | eth | rd | fmt => cases hv
  | rd =>
    cases w with
    | rd => rfl
    | none | eth | ip | ethIp | fmt => cases hv
  | fmt =>
    cases w with
    | fmt => rfl
    | none | eth | ip | ethIp | rd => cases hv

/-- Settles O23: the shape a command has is shared by every state that agrees on the read set, and what it shows is the
shape's writes. -/
theorem commandDependsOnReadSet : Obligations.CommandDependsOnReadSet := by
  intro i s s' hlen hread
  obtain ⟨sh, hs, hshared⟩ := exec_shape i s
  rw [hs, hshared s' hlen hread]
  cases sh with
  | fault f => exact ⟨fun _ h => (nomatch h), fun _ h => h⟩
  | ends c w =>
    refine ⟨fun t h => ?_, fun f h => nomatch h⟩
    obtain rfl := Host.Outcome.next.inj h
    have hst := apply_status w c i.opcode s s'
    exact ⟨_, rfl, hst, visibleResults_congr hst fun g => apply_sameGroup w c i.opcode s s'⟩

/-- A command's writes done again to the state they left change nothing. -/
theorem apply_idempotent (w : Writes) (c : Code) (opc : Byte) (s : State) :
    endCommand c (w.apply (beginCommand opc (endCommand c (w.apply (beginCommand opc s))))) =
      endCommand c (w.apply (beginCommand opc s)) := by
  cases w <;> rfl

/-- Settles O24: the state a command leaves has the LEN and FBUF it was issued on, so the command has the same shape
there. -/
theorem commandsAreIdempotent : Obligations.CommandsAreIdempotent := by
  intro i s t h
  obtain ⟨hfbuf, hlen, -⟩ := exec_frame h
  obtain ⟨sh, hs, hshared⟩ := exec_shape i s
  have ht := hshared t hlen fun a _ => by rw [hfbuf]
  rw [hs] at h
  rw [ht]
  cases sh with
  | fault f => cases h
  | ends c w =>
    obtain rfl := Host.Outcome.next.inj h
    exact congrArg _ (apply_idempotent w c i.opcode s)

/-! ### Byte order -/

/-- The place-value sum of a byte sequence, first byte most significant (R64). -/
def placeSum (s : List Byte) : Nat :=
  ((List.range s.length).map fun i => (byteAt s i).toNat * 256 ^ (s.length - 1 - i)).sum

theorem placeSum_cons (b : Byte) (s : List Byte) : placeSum (b :: s) = b.toNat * 256 ^ s.length + placeSum s := by
  have hexp : ∀ i, s.length - 1 - i = s.length - (i + 1) := fun i => by omega
  simp [placeSum, List.range_succ_eq_map, Function.comp_def, byteAt, hexp]

/-- Reading on from a value already read shifts it by the places still to come (R64). -/
theorem foldl_bytes (acc : Nat) (s : List Byte) :
    s.foldl (fun acc b => acc * 256 + b.toNat) acc = acc * 256 ^ s.length + placeSum s := by
  induction s generalizing acc with
  | nil => simp [placeSum]
  | cons b s ih =>
    rw [List.foldl_cons, ih, placeSum_cons, List.length_cons]
    ring

theorem beValue_eq_placeSum (s : List Byte) : beValue s = placeSum s := by
  rw [beValue, foldl_bytes, Nat.zero_mul, Nat.zero_add]

/-- A subsequence that lies inside is its bytes in order (R8). -/
theorem slice_eq_map_byteAt {h : List Byte} {i n : Nat} (hl : i + n ≤ h.length) :
    slice h i (i + n) = (List.range n).map fun k => byteAt h (i + k) := by
  apply List.ext_getElem
  · simp only [slice, List.length_take, List.length_drop, List.length_map, List.length_range]
    omega
  · intro k hk _
    have hin : i + k < h.length := by
      simp only [slice, List.length_take, List.length_drop] at hk
      omega
    simp [slice, byteAt, hin]

/-- Settles O29: the sum by induction on the bytes, the readers as the sums of two and four bytes. -/
theorem bigEndianFields : Obligations.BigEndianFields := by
  refine ⟨beValue_eq_placeSum, fun h i => ⟨rfl, rfl, fun hl => ?_, fun hl => ?_⟩⟩
  · rw [slice_eq_map_byteAt hl, be16_toNat]
    simp only [beValue, List.range, List.range.loop, List.map_cons, List.map_nil, List.foldl_cons, List.foldl_nil,
      Nat.add_zero]
    omega
  · rw [slice_eq_map_byteAt hl, be32_toNat]
    simp only [beValue, List.range, List.range.loop, List.map_cons, List.map_nil, List.foldl_cons, List.foldl_nil,
      Nat.add_zero]
    omega

/-- A word of four bytes is its two halves (R64, R74). -/
theorem toNat_word_eq_halves (a b c d : Byte) :
    (a ++ (b ++ (c ++ d))).toNat = (a ++ b).toNat * 65536 + (c ++ d).toNat := by
  simp only [toNat_append_eq]
  omega

/-- A state that reads alike over a window holds the window's bytes, and any part of them. -/
theorem windowHolds_part {s s' : State} {base n : Nat} {w : Nat → Byte} (hw : WindowHolds s base n w)
    (hr : ∀ k, k < n → Memory.read s'.fbuf (base + k) = Memory.read s.fbuf (base + k)) {d m : Nat} (hd : d + m ≤ n) :
    WindowHolds s' (base + d) m fun k => w (d + k) := fun k hk => by
  rw [Nat.add_assoc, hr (d + k) (by omega), hw (d + k) (by omega)]

/-- R151: RD_U16_BE of a written window reports its two bytes. -/
theorem exec_rdU16Be {base : Nat} {s t : State} {w : Nat → Byte} (hf : ReadsFrame (.rdU16Be base) s)
    (hw : WindowHolds s base 2 w) (h : exec (.rdU16Be base) s = .next t) :
    t.status.rdValid = true ∧ t.rdValue = (w 0 ++ w 1).setWidth 32 := by
  rw [exec_written hf hw] at h
  obtain rfl := Host.Outcome.next.inj h
  exact ⟨rfl, rfl⟩

/-- R152: RD_U32_BE of a written window reports its four bytes. -/
theorem exec_rdU32Be {base : Nat} {s t : State} {w : Nat → Byte} (hf : ReadsFrame (.rdU32Be base) s)
    (hw : WindowHolds s base 4 w) (h : exec (.rdU32Be base) s = .next t) :
    t.status.rdValid = true ∧ t.rdValue = w 0 ++ (w 1 ++ (w 2 ++ w 3)) := by
  rw [exec_written hf hw] at h
  obtain rfl := Host.Outcome.next.inj h
  exact ⟨rfl, rfl⟩

/-- Two readers that both find their first bytes inside the frame. -/
theorem readsFrame_part {i j : Instr} {s s' : State} (hf : ReadsFrame i s) (hlen : s'.len = s.len)
    (hj : j.base + firstRead j ≤ i.base + firstRead i) : ReadsFrame j s' := by
  obtain ⟨hc, hl⟩ := hf
  exact ⟨hlen ▸ hc, hlen ▸ hj.trans hl⟩

/-- R74: the 32-bit reader against two 16-bit readers. -/
theorem rdU32Be_eq_two_rdU16Be {base : Nat} {s s1 s2 t u v : State} (hl1 : s1.len = s.len) (hl2 : s2.len = s.len)
    (hr1 : ∀ k, k < 4 → Memory.read s1.fbuf (base + k) = Memory.read s.fbuf (base + k))
    (hr2 : ∀ k, k < 4 → Memory.read s2.fbuf (base + k) = Memory.read s.fbuf (base + k))
    (ht : exec (.rdU32Be base) s = .next t) (hv : t.status.rdValid = true)
    (hu : exec (.rdU16Be base) s1 = .next u) (hx : exec (.rdU16Be (base + 2)) s2 = .next v) :
    u.status.rdValid = true ∧ v.status.rdValid = true ∧
      t.rdValue.toNat = u.rdValue.toNat * 65536 + v.rdValue.toNat := by
  obtain ⟨hf, w, hw, -⟩ := exec_read_of_groupValid (g := .rd) ht hv
  obtain ⟨-, htv⟩ := exec_rdU32Be hf hw ht
  obtain ⟨huv, hu⟩ := exec_rdU16Be (readsFrame_part hf hl1 (by simp [Instr.base, firstRead]))
    (windowHolds_part (d := 0) hw hr1 (by simp [firstRead])) hu
  obtain ⟨hvv, hx⟩ := exec_rdU16Be (readsFrame_part hf hl2 (by simp [Instr.base, firstRead]))
    (windowHolds_part (d := 2) hw hr2 (by simp [firstRead])) hx
  refine ⟨huv, hvv, ?_⟩
  rw [htv, hu, hx, toNat_word_eq_halves, BitVec.toNat_setWidth_of_le (by decide),
    BitVec.toNat_setWidth_of_le (by decide)]

/-- R74: the destination MAC registers against the readers at the same place. -/
theorem ethDst_eq_readers {base : Nat} {s s1 s2 e u x : State} (hl1 : s1.len = s.len) (hl2 : s2.len = s.len)
    (hr1 : ∀ k, k < 6 → Memory.read s1.fbuf (base + k) = Memory.read s.fbuf (base + k))
    (hr2 : ∀ k, k < 6 → Memory.read s2.fbuf (base + k) = Memory.read s.fbuf (base + k))
    (he : exec (.ethDecode base) s = .next e) (hv : e.status.ethValid = true)
    (hu : exec (.rdU16Be base) s1 = .next u) (hx : exec (.rdU32Be (base + 2)) s2 = .next x) :
    e.eth.dstHi.setWidth 32 = u.rdValue ∧ e.eth.dstLo = x.rdValue := by
  obtain ⟨hf, w, hw, hend⟩ := exec_read_of_groupValid (g := .eth) he hv
  obtain rfl := Host.Outcome.next.inj hend
  have hw6 : WindowHolds s base 6 w := fun k hk => hw k (hk.trans (by simp [firstRead]))
  obtain ⟨-, hu⟩ := exec_rdU16Be (readsFrame_part hf hl1 (by simp [Instr.base, firstRead]))
    (windowHolds_part (d := 0) hw6 hr1 (by decide)) hu
  obtain ⟨-, hx⟩ := exec_rdU32Be (readsFrame_part hf hl2 (by simp [Instr.base, firstRead]))
    (windowHolds_part (d := 2) hw6 hr2 (by decide)) hx
  rw [hu, hx]
  exact ⟨rfl, rfl⟩

/-- Settles O26: a word is two halves, and the readers report the bytes of one window. -/
theorem mixedWidthReadsAgree : Obligations.MixedWidthReadsAgree :=
  ⟨fun _ _ => toNat_word_eq_halves _ _ _ _, fun _ _ _ _ _ _ _ => rdU32Be_eq_two_rdU16Be,
    fun _ _ _ _ _ _ _ => ethDst_eq_readers⟩

/-! ### The host's accesses to FBUF -/

/-- A step whose action is a byte write below BUF_CAP (R61(a)). -/
theorem step_fbufWrite {s : State} {rest : List HostAction} {a : Nat} {v : Word} (ha : a < Config.bufCap)
    (hp : s.pending = .fbufWrite .byte a v :: rest) : step s = .next (hostWriteFbuf a v (s.withPending rest)) := by
  simp only [step_cons hp, perform, (fbufAccessOk_iff .byte a).2 ⟨rfl, ha⟩]

/-- A step whose action is a byte read below BUF_CAP (R61(b)). -/
theorem step_fbufRead {s : State} {rest : List HostAction} {a : Nat} (ha : a < Config.bufCap)
    (hp : s.pending = .fbufRead .byte a :: rest) : step s = .next (hostReadFbuf a (s.withPending rest)) := by
  simp only [step_cons hp, perform, (fbufAccessOk_iff .byte a).2 ⟨rfl, ha⟩]

/-- A read of a written byte returns it to the host (R61(b)). -/
theorem hostReadFbuf_written {s : State} {a : Nat} {b : Byte} (h : Memory.read s.fbuf a = some b) :
    hostReadFbuf a s = respond (.byte b) s := by
  simp only [hostReadFbuf, h]

/-- A read of an unwritten byte records the fault (R61(b)). -/
theorem hostReadFbuf_unwritten {s : State} {a : Nat} (h : Memory.read s.fbuf a = none) :
    hostReadFbuf a s = recordFault (.unwrittenFrameByte a) s := by
  simp only [hostReadFbuf, h]

/-- Settles O39: read after write for the byte written and for every other, and the two answers of a read. -/
theorem fbufAccess : Obligations.FbufAccess := by
  intro s rest a v size
  refine ⟨fun ha => ⟨fun hp => ?_, fun hp => ?_⟩, fun ho => ?_⟩
  · refine ⟨Memory.write s.fbuf a (v.extractLsb' 0 8), ?_, read_write_same _ _ _, fun b => read_write_other _ _⟩
    rw [step_fbufWrite ha hp, ← BitVec.setWidth_eq_extractLsb' (by decide)]
    rfl
  · rw [step_fbufRead ha hp]
    refine ⟨fun b hb => ?_, fun hb => ?_⟩
    · rw [hostReadFbuf_written (s := s.withPending rest) hb]
      rfl
    · rw [hostReadFbuf_unwritten (s := s.withPending rest) hb]
      rfl
  · exact ⟨fun hp => by rw [step_cons hp, perform_outside (a := .fbufWrite size a v) ho.symm],
      fun hp => by rw [step_cons hp, perform_outside (a := .fbufRead size a) ho.symm]⟩

/-- R60, R61(e): a host action other than a byte write to an offset and a reset leaves that byte of FBUF. -/
theorem actionEnds_read {act : HostAction} {s t : State} {a : Nat} (h : ActionEnds act s t)
    (hne : Memory.read t.fbuf a ≠ Memory.read s.fbuf a) : (∃ v, act = .fbufWrite .byte a v) ∨ act = .reset := by
  cases h with
  | fbufStore b v =>
    by_cases hb : a = b
    · exact .inl ⟨v, hb ▸ rfl⟩
    · exact absurd (read_write_other _ _ hb) hne
  | reset => exact .inr rfl
  | issue _ _ _ hi =>
    obtain ⟨hfbuf, -, -⟩ := issueWord_frame hi
    exact absurd (by rw [hfbuf]) hne
  | readWord | readFault | writeLen | writeIgnored | fbufByte | fbufFault => exact absurd rfl hne

/-- Settles O41, over what a step can be: idle, or the host's next action. -/
theorem onlyHostWritesFbuf : Obligations.OnlyHostWritesFbuf := by
  intro s t a h hne
  obtain ⟨-, rfl⟩ | ⟨act, rest, hp, ha⟩ := step_next_cases h
  · exact absurd rfl hne
  · obtain ⟨v, rfl⟩ | rfl := actionEnds_read (s := s.withPending rest) ha hne
    · exact ⟨rest, .inl ⟨v, hp⟩⟩
    · exact ⟨rest, .inr hp⟩

end Sys2Proof.Proofs
end

section
/-! PROOFS. The statements of 30_encoding.md: the decoder and the encoder of command words (R80 to R83), the assembler
(R86, R87) and the examples (R88), and what issuing a command word does (R84, R85). -/

namespace Sys2Proof.Proofs

open Sys2Proof Sys2Proof.Machine Sys2Proof.Laws

/-! ### Command words -/

/-- R81, R82: a word decodes to a command when its three fields are that command's. -/
theorem decode_eq_some_iff (c : Word) (i : Instr) :
    decode c = some i ↔ cmdRsv c = 0#8 ∧ cmdOpc c = i.opcode ∧ i.base = (cmdArg c).toNat := by
  unfold decode
  split
  · simp [*, decodeOpc_eq_some]
  · simp [*]

/-- Settles O1: RSV and OPC of the encoded word are the command's, and ARG is its base because that fits. -/
theorem decodeOfEncode : Obligations.DecodeOfEncode := by
  intro i hwf
  obtain ⟨hopc, hrsv, harg, -⟩ := EncodeFields.fields i ((decodeOpc_eq_some _ _ _).2 ⟨rfl, rfl⟩)
  have hbase : i.base = (cmdArg (encode i)).toNat := by
    rw [harg, Nat.mod_eq_of_lt ((wellFormed_iff i).1 hwf)]
  exact (decode_eq_some_iff _ _).2 ⟨hrsv, hopc, hbase⟩

/-- R82: the match of an opcode map row under the mask 0x0000FFFF is OPC = value and RSV = 0. -/
theorem and_mask_eq_iff (c : Word) (opc : Byte) :
    c &&& 0x0000FFFF#32 = opc.setWidth 32 ↔ cmdRsv c = 0#8 ∧ cmdOpc c = opc := by
  have hmask : (c &&& 0x0000FFFF#32).toNat = c.toNat % 2 ^ 16 := Nat.and_two_pow_sub_one_eq_mod c.toNat 16
  have hopc := opc.isLt
  simp only [← BitVec.toNat_inj, hmask, cmdRsv_toNat, cmdOpc_toNat, BitVec.toNat_setWidth, BitVec.toNat_ofNat]
  omega

/-- Settles O2: the opcodes are the encoder's table, and the mask compares RSV and OPC together. -/
theorem opcodeMapMatch : Obligations.OpcodeMapMatch := by
  refine ⟨fun b => ⟨rfl, rfl, rfl, rfl, rfl, rfl, rfl⟩, fun c i => ?_⟩
  rw [decode_eq_some_iff, and_mask_eq_iff, cmdArg_toNat, and_assoc]

/-- R83: the OPC values the opcode map leaves out are those of the reserved list. -/
theorem decodeOpc_eq_none_iff (opc : Byte) (b : Nat) : decodeOpc opc b = none ↔ reservedOpc opc.toNat := by
  have hopc := opc.isLt
  simp only [decodeOpc, reservedOpc, ite_eq_iff, reduceCtorEq, and_false, and_true, false_or, ← BitVec.toNat_inj,
    BitVec.toNat_ofNat]
  omega

/-- R83: a word decodes to no command when its OPC is reserved or its RSV is not zero. -/
theorem decode_eq_none_iff (c : Word) : decode c = none ↔ reservedOpc (cmdOpc c).toNat ∨ cmdRsv c ≠ 0#8 := by
  unfold decode
  split
  · simp [*, decodeOpc_eq_none_iff]
  · simp [*]

/-- Settles O3, from the two fields as numbers. -/
theorem undecodableWords : Obligations.UndecodableWords := by
  intro c
  rw [decode_eq_none_iff, cmdOpc_toNat, Ne, ← BitVec.toNat_inj, cmdRsv_toNat, BitVec.toNat_ofNat, Nat.zero_mod]

/-! ### The assembler -/

/-- A line that stands for a command assembles to its word or, when the base does not fit, is an error (R86, R87). -/
theorem assembleLine_of_expandLine {l : AsmLine} {i : Instr} (hl : expandLine l = some i) :
    assembleLine l = if i.wellFormed then some (encode i) else none := by
  cases l with
  | word v => cases hl
  | command | decode | rdEthertype | macFmtDst | macFmtSrc | ipv4AfterEth =>
    cases hwf : i.wellFormed <;> simp [assembleLine, hl, hwf]

theorem assembleLine_eq_encode {l : AsmLine} {i : Instr} (hl : expandLine l = some i) (hb : i.base ≤ 65535) :
    assembleLine l = some (encode i) := by
  rw [assembleLine_of_expandLine hl, if_pos ((wellFormed_iff i).2 (Nat.lt_succ_of_le hb))]

theorem assembleLine_eq_none {l : AsmLine} {i : Instr} (hl : expandLine l = some i) (hb : 65535 < i.base) :
    assembleLine l = none := by
  rw [assembleLine_of_expandLine hl, (not_wellFormed_iff i).2 hb, if_neg Bool.false_ne_true]

/-- R86: the word of a command is its base shifted to ARG, with its opcode below. -/
theorem encode_eq_shift_or_opcode (i : Instr) :
    encode i = (BitVec.ofNat 32 i.base <<< 16) ||| i.opcode.setWidth 32 := by
  have hshift : (BitVec.ofNat 32 i.base <<< 16).toNat = 2 ^ 16 * (i.base % 2 ^ 16) := by
    rw [BitVec.toNat_shiftLeft, BitVec.toNat_ofNat, Nat.shiftLeft_eq]
    omega
  have hopc : (i.opcode.setWidth 32).toNat = i.opcode.toNat := BitVec.toNat_setWidth_of_le (by decide)
  have hlt : i.opcode.toNat < 2 ^ 16 := (opcode_lt i).trans (by decide)
  apply BitVec.eq_of_toNat_eq
  rw [encode_toNat, BitVec.toNat_or, hshift, hopc, ← Nat.two_pow_add_eq_or_of_lt hlt, Nat.mul_comm]

/-- Settles O5: a command line stands for its command, and a raw word for itself. -/
theorem assemblerWords : Obligations.AssemblerWords := by
  refine ⟨fun i hb => ?_, fun i => assembleLine_eq_none rfl, fun v => ?_⟩
  · rw [assembleLine_eq_encode rfl hb, encode_eq_shift_or_opcode]
  · simp [assembleLine, v.isLt]

/-- R87: a bare mnemonic of the command table is its command with base 0. -/
theorem parseNoOperand_commandNames : ∀ p ∈ commandNames, parseNoOperand p.1 = some (.command (p.2 0)) := by
  simp only [commandNames, List.forall_mem_cons]
  exact ⟨rfl, rfl, rfl, rfl, rfl, rfl, rfl, List.forall_mem_nil _⟩

/-- Settles O6: each pseudo-instruction is a line that stands for one command, whose base its condition bounds. -/
theorem pseudoInstructionExpansions : Obligations.PseudoInstructionExpansions :=
  ⟨assembleLine_eq_encode rfl (Nat.zero_le _),
    fun _ hb => assembleLine_eq_encode rfl hb, fun _ hb => assembleLine_eq_none rfl hb,
    fun _ hb => assembleLine_eq_encode rfl hb,
    fun _ hb => assembleLine_eq_encode rfl hb, fun _ hb => assembleLine_eq_none rfl hb,
    fun _ hb => assembleLine_eq_encode rfl hb, fun _ hb => assembleLine_eq_none rfl hb,
    fun m mk => parseNoOperand_commandNames (m, mk)⟩

/-! ### Issuing a command word -/

/-- A step whose action is a word write to CMD issues the word (R26, R85). -/
theorem step_cmdWrite {s : State} {c : Word} {rest : List HostAction} (hp : s.pending = cmdWrite c :: rest) :
    step s = issueWord c (s.withPending rest) := by
  rw [step_regWrite rfl hp, hostWriteReg, regAt_cmd]

/-- R85: a word that decodes runs its command. -/
theorem issueWord_of_decode {c : Word} {i : Instr} (hd : decode c = some i) (s : State) :
    issueWord c s = recordOutcome i.opcode s (exec i s) := by
  simp only [issueWord, hd, cmdOpc_of_decode hd]

/-- R84: a word without a command, and any word when LEN is above BUF_CAP, ends with COMMAND_ERROR. -/
theorem issueWord_commandError {c : Word} {s : State} (h : decode c = none ∨ Config.bufCap < s.len.toNat) :
    issueWord c s = .next (takeError .commandError (beginCommand (cmdOpc c) s)) := by
  cases hd : decode c with
  | none => simp only [issueWord, hd]
  | some i =>
    have hlen : Config.bufCap < s.len.toNat := h.resolve_left (by simp [hd])
    rw [issueWord_of_decode hd, exec_over i hlen, cmdOpc_of_decode hd, recordOutcome]

/-- Settles O8: R84's causes are the words without a command and LEN above BUF_CAP. -/
theorem commandErrorCompletes : Obligations.CommandErrorCompletes := by
  intro s c rest hp hcause
  have herr : decode c = none ∨ Config.bufCap < (s.withPending rest).len.toNat := by
    rwa [undecodableWords c, withPending_len, or_assoc]
  have hopc : BitVec.ofNat 8 (c.toNat % 256) = cmdOpc c := by
    rw [← cmdOpc_toNat, BitVec.ofNat_toNat, BitVec.setWidth_eq]
  rw [step_cmdWrite hp, issueWord_commandError herr, hopc]
  rfl

/-- Settles O7: issuing the word records what `exec` of its command answers. -/
theorem stepRunsDecodedCommand : Obligations.StepRunsDecodedCommand := by
  intro s c rest i hp hd
  have hstep : step s = recordOutcome i.opcode (s.withPending rest) (exec i (s.withPending rest)) := by
    rw [step_cmdWrite hp, issueWord_of_decode hd]
  refine ⟨fun t ht => ?_, fun f hf => ?_, exec_ne_refused i _⟩
  · rw [hstep, State.withPending, ht]
    rfl
  · rw [hstep, State.withPending, hf]
    rfl

/-- R85: a command that completes leaves the host's lists and writes its opcode to LAST_OPC. -/
theorem exec_host_frame {i : Instr} {s t : State} (h : exec i s = .next t) :
    t.pending = s.pending ∧ t.responses = s.responses ∧ t.status.lastOpc = i.opcode := by
  obtain ⟨sh, hsh, -⟩ := exec_shape i s
  rw [hsh] at h
  cases sh with
  | fault f => cases h
  | ends c w =>
    obtain rfl := Host.Outcome.next.inj h
    simp

/-- Settles O19, from what a command leaves unchanged. -/
theorem commandFrame : Obligations.CommandFrame := by
  intro i s t h
  obtain ⟨hfbuf, hlen, hfaults⟩ := exec_frame h
  exact ⟨fun a => by rw [hfbuf], hfbuf, hlen, hfaults, exec_host_frame h⟩

/-- Settles O4: the lines and words of R88's table, and its last two words as words without a command. -/
theorem encodingExamples : Obligations.EncodingExamples := by
  have hzero : decode 0x00000000#32 = none := rfl
  have hrsv : decode 0x00000101#32 = none := rfl
  refine ⟨rfl, rfl, rfl, rfl, rfl, rfl, rfl, rfl, rfl, rfl, rfl, rfl, rfl, rfl, rfl, rfl, rfl, hzero, rfl, hrsv,
    fun s c rest hc hp => ?_⟩
  have hd : decode c = none := by obtain rfl | rfl := hc <;> assumption
  exact ⟨_, (step_cmdWrite hp).trans (issueWord_commandError (.inl hd)), rfl⟩

end Sys2Proof.Proofs
end

section
/-! PROOFS. The statements of 40_ethernet.md: the word, the registers and the ends of ETH_DECODE (R100 to R104). -/

namespace Sys2Proof.Proofs

open Sys2Proof Sys2Proof.Machine Sys2Proof.Laws

/-! ### ETH_DECODE -/

/-- R80, R82: the word of a command whose base fits ARG is the base in its upper half and the opcode in its lowest
byte. -/
theorem encode_eq_ofNat {i : Instr} (hb : i.base < 2 ^ 16) :
    encode i = BitVec.ofNat 32 (i.base * 2 ^ 16 + i.opcode.toNat) := by
  have hn : (encode i).toNat = i.base * 2 ^ 16 + i.opcode.toNat := by rw [encode_toNat, Nat.mod_eq_of_lt hb]
  rw [← hn, BitVec.ofNat_toNat, BitVec.setWidth_eq]

/-- R30, R101: the ETH group of the 14 bytes read from a window that ends at `len` is the one the rules give. -/
theorem ethGroupOf_read (base len : Nat) (w : Nat → Byte) :
    ethGroupOf base (len - base) ((List.range 14).map w) = ethFromRules base len w := rfl

/-- R101, R104: on 14 written bytes ETH_DECODE ends OK with the ETH group alone valid. -/
theorem exec_ethDecode_written {base : Nat} {s : State} {w : Nat → Byte} (hf : ReadsFrame (.ethDecode base) s)
    (hw : WindowHolds s base 14 w) :
    exec (.ethDecode base) s = .next { s with
      eth := ethFromRules base s.len.toNat w
      status := ⟨.ok, true, false, false, false, decide ((w 12 ++ w 13 : Half) = 0x0800#16), 0x01#8⟩ } := by
  rw [exec_written hf hw, ← ethGroupOf_read]
  rfl

/-- R101: on a window shorter than 14 bytes ETH_DECODE ends with TruncatedFrame and no group valid. -/
theorem exec_ethDecode_short {base : Nat} {s : State} (hc : s.len.toNat ≤ Config.bufCap)
    (hl : s.len.toNat < base + 14) :
    exec (.ethDecode base) s = .next { s with
      status := ⟨.truncatedFrame, false, false, false, false, false, 0x01#8⟩ } :=
  exec_short (i := .ethDecode base) hc hl

/-- Settles O9, by the ends of a command that reads 14 bytes: all written, too few in the window, or one unwritten. -/
theorem ethDecodeEffect : Obligations.EthDecodeEffect := by
  intro base s w
  refine ⟨encode_eq_ofNat (i := .ethDecode base), fun hc => ⟨fun hl hw => ?_, fun hl => ?_, fun a hl ha => ?_⟩⟩
  · exact exec_ethDecode_written ⟨hc, hl⟩ hw
  · exact exec_ethDecode_short hc hl
  · exact exec_unwritten (i := .ethDecode base) ⟨hc, hl⟩ ha

/-- A region of FBUF without an unwritten byte holds some bytes (R62). -/
theorem exists_windowHolds {s : State} {base n : Nat} (h : ∀ k, k < n → Memory.read s.fbuf (base + k) ≠ none) :
    ∃ w, WindowHolds s base n w := by
  refine (window_cases s base n).resolve_right ?_
  rintro ⟨a, hle, hlt, hu, -⟩
  obtain ⟨k, rfl⟩ := Nat.exists_eq_add_of_le hle
  exact h k (by omega) hu

/-- Settles O16: W counts the bytes from the base to LEN, so W ≥ 14 puts the header inside the frame, and PAYLOAD_LEN,
at most LEN, is stored exactly. -/
theorem ethDecodeTotal : Obligations.EthDecodeTotal := by
  intro base s hc
  rw [windowLen_eq]
  refine ⟨fun hW hread => ?_, fun hW => ?_⟩
  · obtain ⟨w, hw⟩ := exists_windowHolds hread
    have hf : ReadsFrame (.ethDecode base) s := ⟨hc, show base + 14 ≤ s.len.toNat by omega⟩
    refine ⟨_, exec_ethDecode_written hf hw, rfl, ?_⟩
    exact toNat_ofNat_of_le_len (len := s.len) (by omega)
  · exact ⟨_, exec_ethDecode_short hc (by omega), rfl⟩

end Sys2Proof.Proofs
end

section
/-! PROOFS. The statements of 41_ipv4.md: the flags field (R123), IPV4_DECODE and its checks (R120 to R130), the round
trip of a header (R133), dotted-decimal strings and IPV4_ADDR_FMT (R131, R132). -/

namespace Sys2Proof.Proofs

open Sys2Proof Sys2Proof.Machine Sys2Proof.Laws

/-! ### The flags and fragment-offset field -/

/-- R123: FLAGS is the top 3 bits. -/
theorem flagsOf_toNat (ff : Half) : (flagsOf ff).toNat = ff.toNat / 2 ^ 13 := by
  have hff := ff.isLt
  have hlt : ff.toNat / 2 ^ 13 < 2 ^ 3 := by omega
  rw [flagsOf, BitVec.toNat_setWidth, BitVec.toNat_ushiftRight, Nat.shiftRight_eq_div_pow, Nat.mod_eq_of_lt hlt]

/-- R123: the mask 0x1FFF keeps the bottom 13 bits. -/
theorem fragOffOf_toNat (ff : Half) : (fragOffOf ff).toNat = ff.toNat % 2 ^ 13 := by
  have hmask : ff.toNat &&& 0x1FFF = ff.toNat % 2 ^ 13 := Nat.and_two_pow_sub_one_eq_mod _ 13
  rw [fragOffOf, BitVec.toNat_setWidth, BitVec.toNat_and]
  exact (congrArg (· % 2 ^ 13) hmask).trans (Nat.mod_mod _ _)

theorem flagsOf_getLsbD (ff : Half) (k : Nat) : (flagsOf ff).getLsbD k = ff.getLsbD (13 + k) := by
  rw [BitVec.getLsbD, flagsOf_toNat, Nat.testBit_div_two_pow, Nat.add_comm, BitVec.getLsbD]

theorem fragOffOf_getLsbD (ff : Half) {k : Nat} (hk : k < 13) : (fragOffOf ff).getLsbD k = ff.getLsbD k := by
  rw [BitVec.getLsbD, fragOffOf_toNat, Nat.testBit_mod_two_pow, decide_eq_true hk, Bool.true_and, BitVec.getLsbD]

/-- R123: the two parts joined are the field, so no bit is lost. -/
@[simp] theorem flagsOf_append_fragOffOf (ff : Half) : flagsOf ff ++ fragOffOf ff = ff :=
  BitVec.eq_of_toNat_eq (by rw [toNat_append_eq, flagsOf_toNat, fragOffOf_toNat]; omega)

@[simp] theorem flagsOf_append (a : BitVec 3) (b : BitVec 13) : flagsOf (a ++ b) = a :=
  BitVec.eq_of_toNat_eq (by have := b.isLt; rw [flagsOf_toNat, toNat_append_eq]; omega)

@[simp] theorem fragOffOf_append (a : BitVec 3) (b : BitVec 13) : fragOffOf (a ++ b) = b :=
  BitVec.eq_of_toNat_eq (by have := b.isLt; rw [fragOffOf_toNat, toNat_append_eq]; omega)

/-- Settles O28: the parts are the quotient and the remainder by 2 ^ 13, whose bits are the field's from 13 on and
below 13. -/
theorem flagsFieldUnpacks : Obligations.FlagsFieldUnpacks := by
  refine ⟨fun ff => ⟨?_, flagsOf_getLsbD ff 2, flagsOf_getLsbD ff 1, flagsOf_getLsbD ff 0,
    fun k => fragOffOf_getLsbD ff⟩, rfl, rfl, rfl, rfl⟩
  rw [flagsOf_toNat, fragOffOf_toNat]
  omega

/-! ### IPV4_DECODE -/

/-- R120: VERSION is the high nibble of byte 0. -/
theorem versionOf_toNat (h : List Byte) : (versionOf h).toNat = (byteAt h 0).toNat / 2 ^ 4 := by
  have hb := (byteAt h 0).isLt
  have hlt : (byteAt h 0).toNat / 2 ^ 4 < 2 ^ 4 := by omega
  rw [versionOf, BitVec.extractLsb'_toNat, Nat.shiftRight_eq_div_pow, Nat.mod_eq_of_lt hlt]

/-- R120: IHL is the low nibble of byte 0. -/
theorem ihlOf_toNat (h : List Byte) : (ihlOf h).toNat = (byteAt h 0).toNat % 2 ^ 4 := by
  rw [ihlOf, BitVec.extractLsb'_toNat, Nat.shiftRight_zero]

/-- A word that has a number as its value is that number's word. -/
theorem eq_ofNat_of_toNat_eq {n x : Nat} {v : BitVec n} (h : v.toNat = x) : v = BitVec.ofNat n x := by
  rw [← h, BitVec.ofNat_toNat, BitVec.setWidth_eq]

/-- R121: HLEN of the 20 bytes read is IHL × 4. -/
theorem hlenOf_read (w : Nat → Byte) : hlenOf ((List.range 20).map w) = ihlField w * 4 :=
  congrArg (· * 4) (ihlOf_toNat _)

/-- R31, R122: the IP group of the 20 bytes read is the one the rules give. -/
theorem ipGroupOf_read (base : Nat) (w : Nat → Byte) :
    ipGroupOf base ((List.range 20).map w) = ipFromRules base w := by
  have hversion : versionOf ((List.range 20).map w) = BitVec.ofNat 4 ((w 0).toNat / 16) :=
    eq_ofNat_of_toNat_eq (versionOf_toNat _)
  have hihl : ihlOf ((List.range 20).map w) = BitVec.ofNat 4 (ihlField w) := eq_ofNat_of_toNat_eq (ihlOf_toNat _)
  have hff : (w 6 ++ w 7 : Half).toNat = flagsField w := toNat_append_eq _ _
  have hflags : flagsOf (be16 ((List.range 20).map w) 6) = BitVec.ofNat 3 (flagsField w / 8192) :=
    eq_ofNat_of_toNat_eq (hff ▸ flagsOf_toNat _)
  have hfrag : fragOffOf (be16 ((List.range 20).map w) 6) = BitVec.ofNat 13 (flagsField w % 8192) :=
    eq_ofNat_of_toNat_eq (hff ▸ fragOffOf_toNat _)
  rw [ipGroupOf, hversion, hihl, hflags, hfrag, hlenOf_read]
  rfl

/-- R122, R124: IPV4_DECODE of 20 written bytes by its checks: IHL below 5, then a window shorter than HLEN. -/
theorem exec_ipv4Decode_read {base : Nat} {s : State} {w : Nat → Byte} (hf : ReadsFrame (.ipv4Decode base) s)
    (hw : WindowHolds s base 20 w) :
    exec (.ipv4Decode base) s = endOp (
      if ihlField w * 4 < 20 then .raised .malformedHeader (beginCommand 0x02#8 s)
      else if s.len.toNat - base < ihlField w * 4 then .raised .truncatedHeader (beginCommand 0x02#8 s)
      else .ok (writeIp (ipFromRules base w) (beginCommand 0x02#8 s))) := by
  rw [← hlenOf_read, ← ipGroupOf_read]
  exact exec_written hf hw

/-- R122, R124: IPV4_DECODE of 20 written bytes, IHL at least 5 and W at least HLEN, ends OK with the IP group alone
valid. -/
theorem exec_ipv4Decode_ok {base : Nat} {s : State} {w : Nat → Byte} (hc : s.len.toNat ≤ Config.bufCap)
    (hw : WindowHolds s base 20 w) (h5 : 5 ≤ ihlField w) (hl : base + ihlField w * 4 ≤ s.len.toNat) :
    exec (.ipv4Decode base) s = .next { s with
      ip := ipFromRules base w
      status := ⟨.ok, false, true, false, false, false, 0x02#8⟩ } := by
  have hf : ReadsFrame (.ipv4Decode base) s := ⟨hc, show base + 20 ≤ s.len.toNat by omega⟩
  rw [exec_ipv4Decode_read hf hw, if_neg (by omega), if_neg (by omega)]
  rfl

/-- Settles O10: too few bytes in the window, one of the 20 unwritten, or the checks on 20 written bytes. -/
theorem ipv4DecodeEffect : Obligations.Ipv4DecodeEffect := by
  intro base s w
  refine ⟨encode_eq_ofNat (i := .ipv4Decode base), fun hc =>
    ⟨fun hl => ?_, fun a hl ha => ?_, fun hl hw h5 => ?_, fun hl hw h5 hW => ?_, exec_ipv4Decode_ok hc⟩⟩
  · exact exec_short (i := .ipv4Decode base) hc hl
  · exact exec_unwritten (i := .ipv4Decode base) ⟨hc, hl⟩ ha
  · rw [exec_ipv4Decode_read ⟨hc, hl⟩ hw, if_pos (by omega)]
    rfl
  · rw [exec_ipv4Decode_read ⟨hc, hl⟩ hw, if_neg (by omega), if_pos (by omega)]
    rfl

/-! ### The round trip of a header -/

/-- Byte `k` of a word as a number. -/
theorem byteOf_toNat {n : Nat} (v : BitVec n) (k : Nat) : (byteOf v k).toNat = v.toNat / 2 ^ (8 * k) % 2 ^ 8 := by
  rw [byteOf, BitVec.extractLsb'_toNat, Nat.shiftRight_eq_div_pow]

/-- R64, R133: the two bytes of a half join to it. -/
theorem byteOf_append_byteOf (v : Half) : byteOf v 1 ++ byteOf v 0 = v :=
  BitVec.eq_of_toNat_eq (by have := v.isLt; simp only [toNat_append_eq, byteOf_toNat]; omega)

/-- R64, R133: the four bytes of a word join to it. -/
theorem byteOf_append_four (v : Word) : byteOf v 3 ++ (byteOf v 2 ++ (byteOf v 1 ++ byteOf v 0)) = v :=
  BitVec.eq_of_toNat_eq (by have := v.isLt; simp only [toNat_append_eq, byteOf_toNat]; omega)

/-- R64, R133: the bytes of a big-endian half are the two it was read from. -/
theorem byteOf_be16 (h : List Byte) (i : Nat) :
    byteOf (be16 h i) 1 = byteAt h i ∧ byteOf (be16 h i) 0 = byteAt h (i + 1) := by
  have h0 := (byteAt h i).isLt
  have h1 := (byteAt h (i + 1)).isLt
  constructor <;> refine BitVec.eq_of_toNat_eq ?_ <;> rw [byteOf_toNat, be16_toNat] <;> omega

/-- R64, R133: the bytes of a big-endian word are the four it was read from. -/
theorem byteOf_be32 (h : List Byte) (i : Nat) :
    byteOf (be32 h i) 3 = byteAt h i ∧ byteOf (be32 h i) 2 = byteAt h (i + 1) ∧
      byteOf (be32 h i) 1 = byteAt h (i + 2) ∧ byteOf (be32 h i) 0 = byteAt h (i + 3) := by
  have h0 := (byteAt h i).isLt
  have h1 := (byteAt h (i + 1)).isLt
  have h2 := (byteAt h (i + 2)).isLt
  have h3 := (byteAt h (i + 3)).isLt
  refine ⟨?_, ?_, ?_, ?_⟩ <;> refine BitVec.eq_of_toNat_eq ?_ <;> rw [byteOf_toNat, be32_toNat] <;> omega

/-- R120, R133: the two nibbles of byte 0 join to it. -/
theorem versionOf_append_ihlOf (h : List Byte) : versionOf h ++ ihlOf h = byteAt h 0 :=
  BitVec.eq_of_toNat_eq (by rw [toNat_append_eq, versionOf_toNat, ihlOf_toNat]; omega)

/-- R133: encoding the fields decoded from 20 header bytes gives the bytes back. -/
theorem encodeHeader_toFields_ipGroupOf (base : Nat) (h : List Byte) :
    encodeHeader (ipGroupOf base h).toFields = (List.range 20).map (byteAt h) := by
  simp [encodeHeader, IpGroup.toFields, ipGroupOf, versionOf_append_ihlOf, byteOf_be16, byteOf_be32, List.range,
    List.range.loop]

/-- R120, R133: decoding splits byte 0 of an encoding into VERSION and IHL. -/
theorem nibbles_encodeHeader (f : Ipv4Fields) :
    versionOf (encodeHeader f) = f.version ∧ ihlOf (encodeHeader f) = f.ihl := by
  have hb : (byteAt (encodeHeader f) 0).toNat = f.version.toNat * 2 ^ 4 + f.ihl.toNat := toNat_append_eq f.version f.ihl
  have hihl := f.ihl.isLt
  constructor <;> refine BitVec.eq_of_toNat_eq ?_
  · rw [versionOf_toNat, hb]
    omega
  · rw [ihlOf_toNat, hb]
    omega

/-- R133: decoding the encoding of a field record gives the record back. -/
theorem toFields_ipGroupOf_encodeHeader (base : Nat) (f : Ipv4Fields) :
    (ipGroupOf base (encodeHeader f)).toFields = f := by
  obtain ⟨hversion, hihl⟩ := nibbles_encodeHeader f
  have hff : be16 (encodeHeader f) 6 = f.flags ++ f.fragOff := byteOf_append_byteOf _
  have h2 : be16 (encodeHeader f) 2 = f.totLen := byteOf_append_byteOf _
  have h4 : be16 (encodeHeader f) 4 = f.ident := byteOf_append_byteOf _
  have h10 : be16 (encodeHeader f) 10 = f.csum := byteOf_append_byteOf _
  have h12 : be32 (encodeHeader f) 12 = f.src := byteOf_append_four _
  have h16 : be32 (encodeHeader f) 16 = f.dst := byteOf_append_four _
  simp only [IpGroup.toFields, ipGroupOf, hversion, hihl, hff, h2, h4, h10, h12, h16,
    flagsOf_append, fragOffOf_append]
  rfl

/-- R25, R122: an IP group that IPV4_DECODE leaves valid is the one the rules give for the 20 bytes of its window. -/
theorem exec_ipv4Decode_ip {base : Nat} {s t : State} {w : Nat → Byte} (h : exec (.ipv4Decode base) s = .next t)
    (hv : t.status.ipValid = true) (hw : WindowHolds s base 20 w) : t.ip = ipFromRules base w := by
  obtain ⟨hf, -⟩ := exec_read_of_groupValid (g := .ip) h hv
  rw [exec_ipv4Decode_read hf hw] at h
  split at h
  · obtain rfl := Host.Outcome.next.inj h
    simp at hv
  · split at h <;> obtain rfl := Host.Outcome.next.inj h
    · simp at hv
    · rfl

/-- Settles O27: the reported group is that of the 20 bytes of the window, so both directions are round trips between
those bytes and the fields. -/
theorem headerRoundTrip : Obligations.HeaderRoundTrip := by
  refine ⟨fun base s t w h hv hw => ?_, fun base s f h5 hc hl hw => ?_⟩
  · rw [exec_ipv4Decode_ip h hv hw, ← ipGroupOf_read]
    exact encodeHeader_toFields_ipGroupOf base _
  · obtain ⟨-, hihl⟩ := nibbles_encodeHeader f
    have hfield : ihlField (byteAt (encodeHeader f)) = f.ihl.toNat := by
      rw [← hihl]
      exact (ihlOf_toNat _).symm
    rw [← hfield] at h5 hl
    refine ⟨_, exec_ipv4Decode_ok hc hw h5 hl, rfl, ?_⟩
    rw [← ipGroupOf_read]
    exact toFields_ipGroupOf_encodeHeader base f

/-! ### Dotted-decimal strings -/

/-- R11: the ASCII code of a decimal digit. -/
theorem decDigit_toNat {d : Nat} (hd : d < 10) : (decDigit d).toNat = 0x30 + d := by
  rw [decDigit, BitVec.toNat_ofNat]
  omega

theorem decDigit_isDigit {d : Nat} (hd : d < 10) : 0x30 ≤ (decDigit d).toNat ∧ (decDigit d).toNat ≤ 0x39 := by
  rw [decDigit_toNat hd]
  omega

theorem decDigit_ne_zero {d : Nat} (h0 : 0 < d) (hd : d < 10) : decDigit d ≠ 0x30#8 := fun he => by
  have hn : 0x30 + d = 0x30 := (decDigit_toNat hd).symm.trans (congrArg BitVec.toNat he)
  omega

/-- R131: a number below 1000 is written with its one, two or three digits, the first of several not 0. -/
theorem dec_cases {n : Nat} (hn : n < 1000) :
    (n < 10 ∧ dec n = [decDigit n]) ∨
    (0 < n / 10 ∧ n / 10 < 10 ∧ dec n = [decDigit (n / 10), decDigit (n % 10)]) ∨
    (0 < n / 100 ∧ n / 100 < 10 ∧ dec n = [decDigit (n / 100), decDigit (n / 10 % 10), decDigit (n % 10)]) := by
  unfold dec
  split
  · exact .inl ⟨‹_›, rfl⟩
  · split
    · exact .inr (.inl ⟨by omega, by omega, rfl⟩)
    · exact .inr (.inr ⟨by omega, by omega, rfl⟩)

theorem dec_isDigit {n : Nat} (hn : n < 1000) : ∀ c ∈ dec n, 0x30 ≤ c.toNat ∧ c.toNat ≤ 0x39 := by
  obtain ⟨h, e⟩ | ⟨-, h, e⟩ | ⟨-, h, e⟩ := dec_cases hn <;> simp [e, h, decDigit_isDigit, Nat.mod_lt]

/-- R131: reading the numeral back gives the number. -/
theorem dec_value {n : Nat} (hn : n < 1000) : (dec n).foldl (fun acc c => acc * 10 + (c.toNat - 0x30)) 0 = n := by
  obtain ⟨h, e⟩ | ⟨-, h, e⟩ | ⟨-, h, e⟩ := dec_cases hn <;> simp [e, h, decDigit_toNat, Nat.mod_lt] <;> omega

/-- R131: no leading zero but in the numeral of 0. -/
theorem eq_zero_of_dec_head? {n : Nat} (hn : n < 1000) (hz : (dec n).head? = some 0x30#8) : n = 0 := by
  obtain ⟨h, e⟩ | ⟨h0, h, e⟩ | ⟨h0, h, e⟩ := dec_cases hn <;> rw [e, List.head?_cons, Option.some_inj] at hz
  · exact Nat.eq_zero_of_not_pos fun h0 => decDigit_ne_zero h0 h hz
  · exact absurd hz (decDigit_ne_zero h0 h)
  · exact absurd hz (decDigit_ne_zero h0 h)

/-- Settles O31: the three facts of a numeral by its number of digits, and the joined string by its definition. -/
theorem dottedDecimal : Obligations.DottedDecimal := by
  refine ⟨fun n hn => ?_, fun a b c d => ⟨?_, dotted_length _⟩⟩
  · have hn' : n < 1000 := by omega
    refine ⟨dec_isDigit hn', dec_value hn', fun hz => ?_, (dec_length n).1⟩
    obtain rfl := eq_zero_of_dec_head? hn' hz
    exact ⟨rfl, rfl⟩
  · simp [dotted, byteAt, dot]

/-! ### IPV4_ADDR_FMT -/

/-- Settles O15, by the ends of a command that reads 4 bytes: all written, too few in the window, or one unwritten. -/
theorem ipv4AddrFmtEffect : Obligations.Ipv4AddrFmtEffect := by
  intro base s w
  refine ⟨encode_eq_ofNat (i := .ipv4AddrFmt base), fun hc => ⟨fun hl hw => ?_, fun hl => ?_, fun a hl ha => ?_⟩⟩
  · exact exec_written (i := .ipv4AddrFmt base) ⟨hc, hl⟩ hw
  · exact exec_short (i := .ipv4AddrFmt base) hc hl
  · exact exec_unwritten (i := .ipv4AddrFmt base) ⟨hc, hl⟩ ha

end Sys2Proof.Proofs
end

section
/-! PROOFS. The statements of 42_helpers.md: the big-endian readers (R151, R152), MAC_FMT and MAC strings
(R153 to R155), and the injectivity of the renderers (R156). -/

namespace Sys2Proof.Proofs

open Sys2Proof Sys2Proof.Machine Sys2Proof.Laws

/-! ### The big-endian readers -/

/-- R151: the value of two bytes, zero-extended, is the number they stand for. -/
theorem setWidth_be16 (h : List Byte) (i : Nat) :
    (be16 h i).setWidth 32 = BitVec.ofNat 32 ((byteAt h i).toNat * 256 + (byteAt h (i + 1)).toNat) :=
  eq_ofNat_of_toNat_eq ((BitVec.toNat_setWidth_of_le (by decide)).trans (be16_toNat h i))

/-- Settles O12, by the ends of a command that reads 2 bytes: all written, too few in the window, or one unwritten. -/
theorem rdU16BeEffect : Obligations.RdU16BeEffect := by
  intro base s w
  refine ⟨encode_eq_ofNat (i := .rdU16Be base), fun hc => ⟨fun hl hw => ?_, fun hl => ?_, fun a hl ha => ?_⟩⟩
  · have hvalue : (w 0 ++ w 1 : Half).setWidth 32 = BitVec.ofNat 32 ((w 0).toNat * 256 + (w 1).toNat) :=
      setWidth_be16 [w 0, w 1] 0
    rw [exec_written (i := .rdU16Be base) ⟨hc, hl⟩ hw, ← hvalue]
    rfl
  · exact exec_short (i := .rdU16Be base) hc hl
  · exact exec_unwritten (i := .rdU16Be base) ⟨hc, hl⟩ ha

/-- Settles O13, by the ends of a command that reads 4 bytes: all written, too few in the window, or one unwritten. -/
theorem rdU32BeEffect : Obligations.RdU32BeEffect := by
  intro base s w
  refine ⟨encode_eq_ofNat (i := .rdU32Be base), fun hc => ⟨fun hl hw => ?_, fun hl => ?_, fun a hl ha => ?_⟩⟩
  · have hvalue : w 0 ++ (w 1 ++ (w 2 ++ w 3)) = BitVec.ofNat 32
        ((w 0).toNat * 2 ^ 24 + (w 1).toNat * 2 ^ 16 + (w 2).toNat * 2 ^ 8 + (w 3).toNat) :=
      eq_ofNat_of_toNat_eq (be32_toNat [w 0, w 1, w 2, w 3] 0)
    rw [exec_written (i := .rdU32Be base) ⟨hc, hl⟩ hw, ← hvalue]
    rfl
  · exact exec_short (i := .rdU32Be base) hc hl
  · exact exec_unwritten (i := .rdU32Be base) ⟨hc, hl⟩ ha

/-! ### MAC_FMT -/

/-- Settles O14, by the ends of a command that reads 6 bytes: all written, too few in the window, or one unwritten. -/
theorem macFmtEffect : Obligations.MacFmtEffect := by
  intro base s w
  refine ⟨encode_eq_ofNat (i := .macFmt base), fun hc => ⟨fun hl hw => ?_, fun hl => ?_, fun a hl ha => ?_⟩⟩
  · exact exec_written (i := .macFmt base) ⟨hc, hl⟩ hw
  · exact exec_short (i := .macFmt base) hc hl
  · exact exec_unwritten (i := .macFmt base) ⟨hc, hl⟩ ha

/-! ### MAC strings -/

/-- R154: the code of a hexadecimal digit, from '0' on below ten and from 'a' on above. -/
theorem hexDigit_eq_ofNat (n : Nat) :
    hexDigit n = BitVec.ofNat 8 (if n < 10 then 0x30 + n else 0x61 + (n - 10)) :=
  (apply_ite _ _ _ _).symm

/-- R155, R156: the pair of byte k stands at position 3k. -/
theorem slice_macString (m : List Byte) {k : Nat} (hk : k < 6) :
    slice (macString m) (3 * k) (3 * k + 2) = hex2 (byteAt m k) := by
  interval_cases k <;> rfl

/-- R155: a colon stands after each pair but the last. -/
theorem macString_colon (m : List Byte) {k : Nat} (hk : k < 5) : (macString m)[3 * k + 2]? = some colon := by
  interval_cases k <;> rfl

/-- Character j of the subsequence h[a:b) is character a + j (R8). -/
theorem slice_getElem? (h : List Byte) (a : Nat) {b j : Nat} (hj : a + j < b) : (slice h a b)[j]? = h[a + j]? := by
  rw [slice, List.getElem?_take_of_lt (by omega), List.getElem?_drop]

/-- R154, R155: the digit of byte k's high nibble stands at position 3k, that of its low nibble next to it. -/
theorem macString_digits (m : List Byte) {k : Nat} (hk : k < 6) :
    (macString m)[3 * k]? = some (hexDigit ((byteAt m k).toNat / 16)) ∧
      (macString m)[3 * k + 1]? = some (hexDigit ((byteAt m k).toNat % 16)) := by
  have hpair := slice_macString m hk
  constructor
  · rw [← Nat.add_zero (3 * k), ← slice_getElem? _ _ (b := 3 * k + 2) (by omega), hpair]
    rfl
  · rw [← slice_getElem? _ _ (b := 3 * k + 2) (by omega), hpair]
    rfl

/-- Settles O30: 17 characters, the digits of each pair by their codes, and the colons. -/
theorem macStringShape : Obligations.MacStringShape := by
  intro m _
  refine ⟨macString_length m, fun k hk => ?_, fun k => macString_colon m⟩
  rw [← hexDigit_eq_ofNat, ← hexDigit_eq_ofNat]
  exact macString_digits m hk

/-! ### Injectivity of the renderers -/

/-- R154: the sixteen digits are distinct. -/
theorem hexDigit_inj {n n' : Nat} (hn : n < 16) (hn' : n' < 16) (h : hexDigit n = hexDigit n') : n = n' := by
  simp only [hexDigit_eq_ofNat, ← BitVec.toNat_inj, BitVec.toNat_ofNat] at h
  split at h <;> split at h <;> omega

/-- R156: a byte is its two nibbles, which Hex2 writes apart. -/
theorem hex2_injective : Function.Injective hex2 := by
  intro b b' h
  have hb := b.isLt
  have hb' := b'.isLt
  obtain ⟨hhigh, hlow⟩ : hexDigit (b.toNat / 16) = hexDigit (b'.toNat / 16) ∧
      hexDigit (b.toNat % 16) = hexDigit (b'.toNat % 16) := by simpa [hex2] using h
  have hdiv := hexDigit_inj (by omega) (by omega) hhigh
  have hmod := hexDigit_inj (by omega) (by omega) hlow
  exact BitVec.eq_of_toNat_eq (by omega)

/-- Byte sequences of one length with the same bytes are the same (R8). -/
theorem eq_of_byteAt_eq {m m' : List Byte} {n : Nat} (hm : m.length = n) (hm' : m'.length = n)
    (h : ∀ k, k < n → byteAt m k = byteAt m' k) : m = m' := by
  refine List.ext_getElem (hm.trans hm'.symm) fun k hk hk' => ?_
  simpa [byteAt, hk, hk'] using h k (hm ▸ hk)

/-- R156: the pair of each byte is read off the MAC string at its place. -/
theorem macString_inj {m m' : List Byte} (hm : m.length = 6) (hm' : m'.length = 6) (h : macString m = macString m') :
    m = m' :=
  eq_of_byteAt_eq hm hm' fun k hk => hex2_injective (by rw [← slice_macString m hk, h, slice_macString m' hk])

/-- R131: the value of a numeral is its number, so numbers with the same numeral are the same. -/
theorem dec_inj {n n' : Nat} (hn : n < 1000) (hn' : n' < 1000) (h : dec n = dec n') : n = n' := by
  rw [← dec_value hn, h, dec_value hn']

theorem dec_toNat_injective : Function.Injective fun b : Byte => dec b.toNat := fun b b' h =>
  BitVec.eq_of_toNat_eq (dec_inj (b.isLt.trans (by decide)) (b'.isLt.trans (by decide)) h)

/-- R131: a numeral holds digits only, so no dot. -/
theorem dot_notMem_dec (b : Byte) : dot ∉ dec b.toNat := fun hmem =>
  absurd (dec_isDigit (b.isLt.trans (by decide)) dot hmem).1 (by decide)

/-- R131: a dotted string is its four numerals joined by '.'. -/
theorem dotted_eq_intercalate (o : List Byte) :
    dotted o = [dot].intercalate ((List.range 4).map fun k => dec (byteAt o k).toNat) := by
  simp [dotted, List.intercalate, List.range, List.range.loop]

/-- R131: no numeral holds a dot, so splitting a dotted string at its dots gives the numerals back. -/
theorem splitOn_dotted (o : List Byte) :
    (dotted o).splitOn dot = (List.range 4).map fun k => dec (byteAt o k).toNat := by
  rw [dotted_eq_intercalate]
  refine List.splitOn_intercalate _ (fun l hl => ?_) (by simp)
  obtain ⟨k, -, rfl⟩ := List.mem_map.1 hl
  exact dot_notMem_dec _

/-- R156: the octets of a dotted string are the values of the numerals between its dots. -/
theorem dotted_inj {o o' : List Byte} (ho : o.length = 4) (ho' : o'.length = 4) (h : dotted o = dotted o') :
    o = o' := by
  have hnumerals := congrArg (List.splitOn dot) h
  rw [splitOn_dotted, splitOn_dotted, List.map_inj_left] at hnumerals
  exact eq_of_byteAt_eq ho ho' fun k hk => dec_toNat_injective (hnumerals k (List.mem_range.2 hk))

/-- Settles O32: the pairs of a MAC string stand at fixed places, and the dots of a dotted string end
its numerals. -/
theorem renderersInjective : Obligations.RenderersInjective :=
  ⟨fun _ _ h => hex2_injective h, fun m _ => slice_macString m, fun _ _ => macString_inj, fun _ _ => dotted_inj⟩

end Sys2Proof.Proofs
end

section
/-! PROOFS. The statements of 43_demux.md: the ends of FRAME_DECODE (R170 to R172) and its agreement with ETH_DECODE
followed by IPV4_DECODE on the payload (R173). -/

namespace Sys2Proof.Proofs

open Sys2Proof Sys2Proof.Machine Sys2Proof.Laws

/-! ### The IPv4 step on a window, from any state -/

/-- R122: fewer than 20 bytes in the window are a TruncatedHeader. -/
theorem ipv4DecodeOp_short {base W : Nat} {s : State} (hW : W < 20) :
    ipv4DecodeOp base W s = .raised .truncatedHeader s :=
  withBytes_short hW

/-- R62, R122: an unwritten byte among the 20 faults, the lowest one named. -/
theorem ipv4DecodeOp_unwritten {base W a : Nat} {s : State} (hW : 20 ≤ W) (ha : FirstUnwritten s base 20 a) :
    ipv4DecodeOp base W s = .fault (.unwrittenFrameByte a) :=
  withBytes_firstUnwritten hW ha

/-- R122, R124: 20 written bytes go through the checks on IHL, then give the IP group of the rules. -/
theorem ipv4DecodeOp_written {base W : Nat} {s : State} {w : Nat → Byte} (hW : 20 ≤ W)
    (hw : WindowHolds s base 20 w) :
    ipv4DecodeOp base W s =
      if ihlField w * 4 < 20 then .raised .malformedHeader s
      else if W < ihlField w * 4 then .raised .truncatedHeader s
      else .ok (writeIp (ipFromRules base w) s) := by
  rw [← hlenOf_read, ← ipGroupOf_read]
  exact withBytes_written hW hw

/-- R65, R122: FBUF and the window alone decide the end of the IPv4 step, so it ends alike from two states with the
same FBUF: in a fault, in an error, or with an IP group written. -/
theorem ipv4DecodeOp_alike (base W : Nat) {s s' : State} (hm : s'.fbuf = s.fbuf) :
    (∃ f, ipv4DecodeOp base W s = .fault f) ∨
    (∃ e, ipv4DecodeOp base W s = .raised e s ∧ ipv4DecodeOp base W s' = .raised e s') ∨
    (∃ g, ipv4DecodeOp base W s = .ok (writeIp g s) ∧ ipv4DecodeOp base W s' = .ok (writeIp g s')) := by
  by_cases hW : W < 20
  · exact .inr (.inl ⟨_, ipv4DecodeOp_short hW, ipv4DecodeOp_short hW⟩)
  rw [Nat.not_lt] at hW
  obtain ⟨w, hw⟩ | ⟨a, ha⟩ := window_cases s base 20
  · have hw' : WindowHolds s' base 20 w := fun k hk => hm ▸ hw k hk
    rw [ipv4DecodeOp_written hW hw, ipv4DecodeOp_written hW hw']
    split
    · exact .inr (.inl ⟨_, rfl, rfl⟩)
    · split
      · exact .inr (.inl ⟨_, rfl, rfl⟩)
      · exact .inr (.inr ⟨_, rfl, rfl⟩)
  · exact .inl ⟨_, ipv4DecodeOp_unwritten hW ha⟩

/-! ### FRAME_DECODE after its Ethernet step -/

/-- What the command `opc` goes on from once its Ethernet step has read the bytes `w` (R101, R171): the ETH group and
ETH_VALID are written, IS_IPV4 is `v4`, and CODE is still the last command's. -/
def afterEthStep (opc : Byte) (base : Nat) (s : State) (w : Nat → Byte) (v4 : Bool) : State :=
  { s with
    eth := ethFromRules base s.len.toNat w
    status := ⟨s.status.code, true, false, false, false, v4, opc⟩ }

theorem writeEth_eq_afterEthStep {opc : Byte} {base : Nat} {s : State} {w : Nat → Byte} {v4 : Bool}
    (hty : isIpv4Type (w 12 ++ w 13) = v4) :
    writeEth (ethGroupOf base (s.len.toNat - base) ((List.range 14).map w)) (beginCommand opc s) =
      afterEthStep opc base s w v4 := by
  subst hty
  rfl

theorem afterRead_frameDecode_other {b W : Nat} {s : State} {h : List Byte} (hty : isIpv4Type (be16 h 12) = false) :
    afterRead (.frameDecode b) W s h = .ok (writeEth (ethGroupOf b W h) s) := by
  simp [afterRead, hty]

theorem afterRead_frameDecode_ipv4 {b W : Nat} {s : State} {h : List Byte} (hty : isIpv4Type (be16 h 12) = true) :
    afterRead (.frameDecode b) W s h = ipv4DecodeOp (b + 14) (W - 14) (writeEth (ethGroupOf b W h) s) := by
  simp [afterRead, hty]

section
variable {base : Nat} {s : State} {w : Nat → Byte}

/-- R101: on 14 written bytes ETH_DECODE ends OK after its Ethernet step. -/
theorem exec_ethDecode_eq_afterEthStep {v4 : Bool} (hf : ReadsFrame (.ethDecode base) s)
    (hw : WindowHolds s base 14 w) (hty : isIpv4Type (w 12 ++ w 13) = v4) :
    exec (.ethDecode base) s = .next (endCommand .ok (afterEthStep 0x01#8 base s w v4)) := by
  rw [← writeEth_eq_afterEthStep hty]
  exact exec_written hf hw

/-- R171: on 14 written bytes with another EtherType FRAME_DECODE ends OK after its Ethernet step. -/
theorem exec_frameDecode_other (hf : ReadsFrame (.frameDecode base) s) (hw : WindowHolds s base 14 w)
    (hty : isIpv4Type (w 12 ++ w 13) = false) :
    exec (.frameDecode base) s = .next (endCommand .ok (afterEthStep 0x03#8 base s w false)) := by
  rw [← writeEth_eq_afterEthStep hty, exec_written hf hw]
  exact congrArg endOp (afterRead_frameDecode_other (h := (List.range 14).map w) hty)

/-- R171: on 14 written bytes with EtherType 0x0800 FRAME_DECODE goes on with the IPv4 step on the payload's window. -/
theorem exec_frameDecode_ipv4 (hf : ReadsFrame (.frameDecode base) s) (hw : WindowHolds s base 14 w)
    (hty : isIpv4Type (w 12 ++ w 13) = true) :
    exec (.frameDecode base) s =
      endOp (ipv4DecodeOp (base + 14) (s.len.toNat - (base + 14)) (afterEthStep 0x03#8 base s w true)) := by
  rw [← writeEth_eq_afterEthStep hty, Nat.sub_add_eq, exec_written hf hw]
  exact congrArg endOp (afterRead_frameDecode_ipv4 (h := (List.range 14).map w) hty)

/-- R63: the payload's header is the part of the frame's window from byte 14 on. -/
theorem windowHolds_payload (hw : WindowHolds s base 34 w) :
    WindowHolds (afterEthStep 0x03#8 base s w true) (base + 14) 20 fun k => w (14 + k) :=
  windowHolds_part hw (fun _ _ => rfl) (by omega)

end

/-- Settles O11: the ends of the Ethernet step, then those of the IPv4 step on the state it leaves. -/
theorem frameDecodeEffect : Obligations.FrameDecodeEffect := by
  intro base s w
  refine ⟨encode_eq_ofNat (i := .frameDecode base), fun hc => ⟨fun hl => ?_, fun a hl ha => ?_,
    fun hl hw ht => ?_, fun hl hw ht => ?_⟩⟩
  · exact exec_short (i := .frameDecode base) hc hl
  · exact exec_unwritten (i := .frameDecode base) ⟨hc, hl⟩ ha
  · exact exec_frameDecode_other ⟨hc, hl⟩ hw (beq_eq_false_iff_ne.2 ht)
  · rw [exec_frameDecode_ipv4 ⟨hc, hl⟩ hw (beq_iff_eq.2 ht)]
    have h20 (hl' : base + 34 ≤ s.len.toNat) : 20 ≤ s.len.toNat - (base + 14) := by omega
    refine ⟨fun hl' => ?_, fun a hl' ha => ?_, fun hl' hw' h5 => ?_, fun hl' hw' h5 hW => ?_, fun hw' h5 hW => ?_⟩
    · rw [ipv4DecodeOp_short (by omega)]
      rfl
    · have ha' : FirstUnwritten (afterEthStep 0x03#8 base s w true) (base + 14) 20 a := ha
      rw [ipv4DecodeOp_unwritten (h20 hl') ha']
      rfl
    · rw [ipv4DecodeOp_written (h20 hl') (windowHolds_payload hw'), if_pos (by omega)]
      rfl
    · rw [ipv4DecodeOp_written (h20 hl') (windowHolds_payload hw'), if_neg (by omega), if_pos (by omega)]
      rfl
    · rw [ipv4DecodeOp_written (h20 (by omega)) (windowHolds_payload hw'), if_neg (by omega), if_neg (by omega)]
      rfl

/-! ### FRAME_DECODE against the two commands in sequence -/

/-- R85: with LEN within BUF_CAP, IPV4_DECODE runs its operation on the window from its base to LEN. -/
theorem exec_ipv4Decode_run {base : Nat} {s : State} (hc : s.len.toNat ≤ Config.bufCap) :
    exec (.ipv4Decode base) s = endOp (ipv4DecodeOp base (s.len.toNat - base) (beginCommand 0x02#8 s)) := by
  rw [← windowLen_eq]
  exact (exec_eq_runCommand _ s).trans (runCommand_run hc)

/-- R172: the IPv4 step, however it completes, leaves the ETH group, ETH_VALID and IS_IPV4. -/
theorem ipv4Step_keeps_eth {base W : Nat} {s t : State} (h : endOp (ipv4DecodeOp base W s) = .next t) :
    t.eth = s.eth ∧ t.status.ethValid = s.status.ethValid ∧ t.status.isIpv4 = s.status.isIpv4 := by
  obtain ⟨a, he⟩ | ⟨e, -, he⟩ | ⟨g, -, -, he⟩ := ipv4DecodeOp_cases base W s <;> rw [he] at h <;> cases h
  · exact ⟨rfl, rfl, rfl⟩
  · exact ⟨rfl, rfl, rfl⟩

/-- R173: when the IPv4 step completes from a state without IP_VALID, IPV4_DECODE on the same window, from a state with
the same FBUF and IP group, completes with the same IP group, IP_VALID and CODE, and without ETH_VALID. -/
theorem ipv4Decode_completes_alike {base : Nat} {s e t : State} (hc : e.len.toNat ≤ Config.bufCap)
    (h : endOp (ipv4DecodeOp base (e.len.toNat - base) s) = .next t) (hm : e.fbuf = s.fbuf) (hip : e.ip = s.ip)
    (hv : s.status.ipValid = false) :
    ∃ p, exec (.ipv4Decode base) e = .next p ∧ t.ip = p.ip ∧ t.status.ipValid = p.status.ipValid ∧
      t.status.code = p.status.code ∧ p.status.ethValid = false := by
  have hm' : (beginCommand 0x02#8 e).fbuf = s.fbuf := hm
  rw [exec_ipv4Decode_run hc]
  obtain ⟨f, he⟩ | ⟨err, he, he'⟩ | ⟨g, he, he'⟩ := ipv4DecodeOp_alike base (e.len.toNat - base) hm' <;>
    rw [he] at h <;> cases h <;> rw [he']
  · exact ⟨_, rfl, hip.symm, hv, rfl, rfl⟩
  · exact ⟨_, rfl, rfl, rfl, rfl, rfl⟩

/-- Settles O25, by the ways FRAME_DECODE goes: an error before its 14 bytes are read is ETH_DECODE's too; after them
the IPv4 step ends as IPV4_DECODE does from the state ETH_DECODE leaves. -/
theorem frameEqualsSequence : Obligations.FrameEqualsSequence := by
  intro base s t _ h
  obtain ⟨hc, he⟩ | ⟨hc, hl, he⟩ | ⟨-, a, -, he⟩ | ⟨hf, w, hw, -⟩ := exec_cases (.frameDecode base) s
  · obtain rfl := Host.Outcome.next.inj (he.symm.trans h)
    exact ⟨_, exec_over (.ethDecode base) hc, rfl, rfl, rfl, fun _ => ⟨rfl, rfl⟩, nofun⟩
  · obtain rfl := Host.Outcome.next.inj (he.symm.trans h)
    exact ⟨_, exec_short (i := .ethDecode base) hc hl, rfl, rfl, rfl, fun _ => ⟨rfl, rfl⟩, nofun⟩
  · cases he.symm.trans h
  · cases hty : isIpv4Type (w 12 ++ w 13) with
    | false =>
      obtain rfl := Host.Outcome.next.inj ((exec_frameDecode_other hf hw hty).symm.trans h)
      exact ⟨_, exec_ethDecode_eq_afterEthStep hf hw hty, rfl, rfl, rfl, fun _ => ⟨rfl, rfl⟩, nofun⟩
    | true =>
      rw [exec_frameDecode_ipv4 hf hw hty] at h
      obtain ⟨heth, hethValid, hisIpv4⟩ := ipv4Step_keeps_eth h
      exact ⟨_, exec_ethDecode_eq_afterEthStep hf hw hty, heth, hethValid, hisIpv4, nofun,
        fun _ => ipv4Decode_completes_alike hf.1 h rfl rfl rfl⟩

end Sys2Proof.Proofs
end

section
/-! PROOFS. The statements of 60_exceptions.md: the CODE values and the commands that end with each (R202 to R207), the
independent blocks of a system (R215), and the idle step (R216). -/

namespace Sys2Proof.Proofs

open Sys2Proof Sys2Proof.Machine Sys2Proof.Laws

/-! ### The CODE a command ends with -/

/-- R203, R204: a short window is a TruncatedHeader for IPV4_DECODE and a TruncatedFrame for every other command. -/
theorem shortError_cases (i : Instr) :
    ((∃ b, i = .ipv4Decode b) ∧ shortError i = .truncatedHeader) ∨
    ((∀ b, i ≠ .ipv4Decode b) ∧ shortError i = .truncatedFrame) := by
  cases i with
  | ipv4Decode b => exact .inl ⟨⟨b, rfl⟩, rfl⟩
  | ethDecode | frameDecode | rdU16Be | rdU32Be | macFmt | ipv4AddrFmt => exact .inr ⟨nofun, rfl⟩

/-- R202: the CODE a command leaves. COMMAND_ERROR stands for LEN above BUF_CAP; within it CODE is OK, the command's
error of a short window, or an error of the IPv4 step, which only two commands have. -/
theorem exec_code_cases {i : Instr} {s t : State} (h : exec i s = .next t) :
    (Config.bufCap < s.len.toNat ∧ t.status.code = .commandError) ∨
    (s.len.toNat ≤ Config.bufCap ∧
      (t.status.code = .ok ∨ t.status.code = codeOf (shortError i) ∨
        (((∃ b, i = .ipv4Decode b) ∨ (∃ b, i = .frameDecode b)) ∧
          (t.status.code = .malformedHeader ∨ t.status.code = .truncatedHeader)))) := by
  cases exec_next_ends h with
  | lenOver _ _ hc => exact .inl ⟨hc, rfl⟩
  | short _ _ hc => exact .inr ⟨hc, .inr (.inl rfl)⟩
  | ipBad b _ _ hc he =>
    exact .inr ⟨hc, .inr (.inr ⟨.inl ⟨b, rfl⟩, he.imp (congrArg codeOf) (congrArg codeOf)⟩)⟩
  | frameBad b _ _ _ hc _ _ he =>
    exact .inr ⟨hc, .inr (.inr ⟨.inr ⟨b, rfl⟩, he.imp (congrArg codeOf) (congrArg codeOf)⟩)⟩
  | ethOk | ipOk | frameOther | frameOk | rd16 | rd32 | macOk | addrOk => exact .inr ⟨‹_›, .inl rfl⟩

/-- Settles O18, over the CODEs a command can leave. -/
theorem codesRaisedBy : Obligations.CodesRaisedBy := by
  refine ⟨⟨rfl, rfl, rfl, rfl, rfl, rfl⟩, fun i s t h => ?_⟩
  obtain ⟨hc, he⟩ | ⟨hc, hcode⟩ := exec_code_cases h
  · simp [he, hc]
  · have hc' : ¬ Config.bufCap < s.len.toNat := Nat.not_lt.2 hc
    obtain he | he | ⟨hi, he | he⟩ := hcode
    · simp [he, hc']
    · obtain ⟨hi, hs⟩ | ⟨hi, hs⟩ := shortError_cases i
      · simp [he, hs, codeOf, hc', hi]
      · simpa [he, hs, codeOf, hc'] using hi
    · simp [he, hc', hi]
    · simp [he, hc', hi]

/-! ### The blocks of a system -/

/-- R215: a system steps at `j` exactly when block `j` steps, and only the entry of that block changes. -/
theorem systemStep_eq_next_iff {j : Nat} {S S1 : System} :
    System.step j S = .next S1 ↔
      ∃ s t, S.blocks[j]? = some s ∧ step s = .next t ∧ S1 = ⟨S.blocks.set j t⟩ := by
  unfold System.step
  cases S.blocks[j]? with
  | none => simp
  | some s => cases hs : step s <;> simp [hs, eq_comm]

/-- Settles O49: each step sets one entry of the list of blocks, and settings of different entries commute. -/
theorem blocksAreIndependent : Obligations.BlocksAreIndependent := by
  intro S S1 j hj
  obtain ⟨s, t, hs, ht, rfl⟩ := systemStep_eq_next_iff.1 hj
  obtain ⟨hlt, -⟩ := List.getElem?_eq_some_iff.1 hs
  refine ⟨fun k hk => List.getElem?_set_ne hk.symm, ⟨s, t, hs, ht, List.getElem?_set_self hlt⟩,
    fun k S2 hk hstep => ?_⟩
  obtain ⟨s', t', hs', ht', rfl⟩ := systemStep_eq_next_iff.1 hstep
  have hs1 : (S.blocks.set j t)[k]? = some s' := (List.getElem?_set_ne hk.symm).trans hs'
  have hs2 : (S.blocks.set k t')[j]? = some s := (List.getElem?_set_ne hk).trans hs
  exact ⟨_, systemStep_eq_next_iff.2 ⟨s', t', hs1, ht', rfl⟩,
    systemStep_eq_next_iff.2 ⟨s, t, hs2, ht, congrArg System.mk (List.set_comm t t' hk.symm)⟩⟩

/-! ### The idle step -/

/-- Settles O48, by the step of a block with no action left. -/
theorem idleKeepsState : Obligations.IdleKeepsState := fun _ => step_nil

end Sys2Proof.Proofs
end

section
/-! PROOFS. The statements of 70_reset_and_hazards.md: the reset action (R230), the first command after a reset (R231)
and the earlier results a command leaves unreadable (R235). -/

namespace Sys2Proof.Proofs

open Sys2Proof Sys2Proof.Machine Sys2Proof.Laws

/-! ### Reset within a run -/

/-- A step whose action is a reset (R230). -/
theorem step_resetAction {s : State} {rest : List HostAction} (hp : s.pending = .reset :: rest) :
    step s = .next (resetBlock (s.withPending rest)) :=
  step_cons hp

/-- Settles O46: the reset block has no written byte and no valid group, and the fault record and the host's lists of
before. -/
theorem resetAction : Obligations.ResetAction := by
  intro s rest hp
  have hread : ∀ off r, (off, r) ∈ regMap → r.group ≠ none →
      readReg (resetBlock (s.withPending rest)) off = .error (.readOfInvalidResult off) :=
    fun _ _ hm hg => readReg_invalid (regAt_of_mem hm) (readable_reset hg)
  exact ⟨_, step_resetAction hp, rfl, rfl, fun _ => rfl, hread, rfl, rfl, rfl⟩

/-! ### A command with LEN = 0 -/

/-- R231: with LEN = 0 every window is shorter than the command's first read, wherever its base lies. -/
theorem exec_of_len_zero (i : Instr) {s : State} (hl : s.len = 0#16) :
    exec i s = .next (takeError (shortError i) (beginCommand i.opcode s)) := by
  have h0 : s.len.toNat = 0 := by rw [hl]; rfl
  exact exec_short (h0 ▸ Nat.zero_le _) (h0 ▸ Nat.add_pos_right i.base (firstRead_pos i))

/-- Settles O47: a decodable word ends with its command's short-window error, any other with COMMAND_ERROR. -/
theorem commandAfterReset : Obligations.CommandAfterReset := by
  intro s c rest hl hp
  refine ⟨fun i hd => ?_, fun hd => ?_⟩
  · rw [step_cmdWrite hp, issueWord_of_decode hd, exec_of_len_zero i (s := s.withPending rest) hl, recordOutcome]
    cases i <;> rfl
  · exact ⟨_, (step_cmdWrite hp).trans (issueWord_commandError (.inl hd)), rfl, rfl⟩

/-! ### Earlier results -/

/-- Settles O21: a group the command does not write is not valid after it, so its registers fault. -/
theorem earlierResultsUnreadable : Obligations.EarlierResultsUnreadable := by
  intro i s t h off r g hm hg hnot
  have hinvalid : groupValid t.status g = false :=
    Bool.eq_false_of_not_eq_true fun hv => hnot (groupValid_mem_groupsOf h hv)
  exact readReg_invalid (regAt_of_mem hm) ((readable_gated hg).trans hinvalid)

end Sys2Proof.Proofs
end
